-- ==== Sys2Proof/Word.lean ====
section
/-! DEFINITION. The machine's word types (00_scope.md R7, R8: every value is an unsigned integer). -/

namespace Sys2Proof

/-- A memory byte or the content of a general register. -/
abbrev Byte := BitVec 8

/-- A fetched opcode, the program counter, the index register or a stack entry. -/
abbrev Word := BitVec 16

/-- An opcode nibble: a register index or the row count of a draw. -/
abbrev Nibble := BitVec 4

/-- The 12-bit address field of an opcode. -/
abbrev Addr12 := BitVec 12

/-- The index of VF, the flag register (10_state.md R21). -/
abbrev vF : Nibble := 0xF#4

end Sys2Proof
end

