-- ==== Sys2Proof/Config.lean ====
section
/-! DEFINITION. What the hardware fixes (00_scope.md R6) and the one free value.
The font and its base stand in Machine/Memory.lean, beside the memory they fill. -/

namespace Sys2Proof.Config

/-- `MEM_SIZE`: addresses 0x000 to 0xFFF. -/
abbrev memSize : Nat := 4096

/-- `PROGRAM_START`: where a ROM is copied and where the first fetch is made. -/
abbrev programStart : Nat := 0x200

/-- `MAX_ROM`: the longest ROM that is accepted. -/
abbrev maxRom : Nat := 3584

/-- `STACK_DEPTH`: the number of return addresses the stack holds. -/
abbrev stackDepth : Nat := 16

/-- FREE VALUE, assumption log 5: the byte of the k-th `RND` draw (42_alu.md R142: a free input of the
step, with no law). It has no body, so a statement about a draw holds for every byte. -/
opaque freeByte : Nat → Byte

end Sys2Proof.Config
end

