-- ==== Sys2Proof/Syntax.lean ====
section
/-! DEFINITION. The instruction set as syntax: one constructor per row of spec/opcode_table.json, in the order
of 30_encoding.md R75. Operand fields are the opcode fields of R71. -/

namespace Sys2Proof

/-- The 35 instruction forms (00_scope.md R2, 30_encoding.md R75). -/
inductive Instr where
  /-- `00E0` CLS -/
  | cls
  /-- `00EE` RET -/
  | ret
  /-- `0NNN` SYS nnn -/
  | sys (nnn : Addr12)
  /-- `1NNN` JP nnn -/
  | jp (nnn : Addr12)
  /-- `2NNN` CALL nnn -/
  | call (nnn : Addr12)
  /-- `3XNN` SE Vx, nn -/
  | seImm (x : Nibble) (nn : Byte)
  /-- `4XNN` SNE Vx, nn -/
  | sneImm (x : Nibble) (nn : Byte)
  /-- `5XY0` SE Vx, Vy -/
  | seReg (x y : Nibble)
  /-- `6XNN` LD Vx, nn -/
  | ldImm (x : Nibble) (nn : Byte)
  /-- `7XNN` ADD Vx, nn -/
  | addImm (x : Nibble) (nn : Byte)
  /-- `8XY0` LD Vx, Vy -/
  | ldReg (x y : Nibble)
  /-- `8XY1` OR Vx, Vy -/
  | or (x y : Nibble)
  /-- `8XY2` AND Vx, Vy -/
  | and (x y : Nibble)
  /-- `8XY3` XOR Vx, Vy -/
  | xor (x y : Nibble)
  /-- `8XY4` ADD Vx, Vy -/
  | add (x y : Nibble)
  /-- `8XY5` SUB Vx, Vy -/
  | sub (x y : Nibble)
  /-- `8XY6` SHR Vx {, Vy}: `y` is decoded and not used (R81) -/
  | shr (x y : Nibble)
  /-- `8XY7` SUBN Vx, Vy -/
  | subn (x y : Nibble)
  /-- `8XYE` SHL Vx {, Vy}: `y` is decoded and not used (R81) -/
  | shl (x y : Nibble)
  /-- `9XY0` SNE Vx, Vy -/
  | sneReg (x y : Nibble)
  /-- `ANNN` LD I, nnn -/
  | ldI (nnn : Addr12)
  /-- `BNNN` JP V0, nnn -/
  | jpV0 (nnn : Addr12)
  /-- `CXNN` RND Vx, nn -/
  | rnd (x : Nibble) (nn : Byte)
  /-- `DXYN` DRW Vx, Vy, n -/
  | drw (x y n : Nibble)
  /-- `EX9E` SKP Vx -/
  | skp (x : Nibble)
  /-- `EXA1` SKNP Vx -/
  | sknp (x : Nibble)
  /-- `FX07` LD Vx, DT -/
  | ldVxDt (x : Nibble)
  /-- `FX0A` LD Vx, K -/
  | ldVxK (x : Nibble)
  /-- `FX15` LD DT, Vx -/
  | ldDt (x : Nibble)
  /-- `FX18` LD ST, Vx -/
  | ldSt (x : Nibble)
  /-- `FX1E` ADD I, Vx -/
  | addI (x : Nibble)
  /-- `FX29` LD F, Vx -/
  | ldF (x : Nibble)
  /-- `FX33` LD B, Vx -/
  | ldB (x : Nibble)
  /-- `FX55` LD [I], Vx -/
  | storeRegs (x : Nibble)
  /-- `FX65` LD Vx, [I] -/
  | loadRegs (x : Nibble)
  deriving DecidableEq, Repr

end Sys2Proof
end

