-- ==== Sys2Proof/Decode.lean ====
section
/-! DEFINITION. The decoder (30_encoding.md R71 to R82, 40_cycle.md R91) and, after it, the encoder. -/

namespace Sys2Proof

/-- The high nibble, `w[15:12]` (R71). -/
def opField (w : Word) : Nibble := w.extractLsb' 12 4

/-- The field `x`, `w[11:8]` (R71). -/
def xField (w : Word) : Nibble := w.extractLsb' 8 4

/-- The field `y`, `w[7:4]` (R71). -/
def yField (w : Word) : Nibble := w.extractLsb' 4 4

/-- The field `n`, `w[3:0]` (R71). -/
def nField (w : Word) : Nibble := w.extractLsb' 0 4

/-- The field `nn`, `w[7:0]` (R71). -/
def nnField (w : Word) : Byte := w.extractLsb' 0 8

/-- The field `nnn`, `w[11:0]` (R71). -/
def nnnField (w : Word) : Addr12 := w.extractLsb' 0 12

/-- Group 0 (R76): CLS and RET are tested before SYS. -/
def decodeGroup0 (w : Word) : Instr :=
  if w = 0x00E0#16 then .cls else if w = 0x00EE#16 then .ret else .sys (nnnField w)

/-- Groups 5 and 9 (R80): the low nibble must be 0. -/
def decodeZeroLow (w : Word) (i : Instr) : Option Instr :=
  if nField w = 0x0#4 then some i else none

/-- Group 8, by the low nibble (R77). -/
def decodeGroup8 (w : Word) : Option Instr :=
  let x := xField w
  let y := yField w
  let f := nField w
  if f = 0x0#4 then some (.ldReg x y)
  else if f = 0x1#4 then some (.or x y)
  else if f = 0x2#4 then some (.and x y)
  else if f = 0x3#4 then some (.xor x y)
  else if f = 0x4#4 then some (.add x y)
  else if f = 0x5#4 then some (.sub x y)
  else if f = 0x6#4 then some (.shr x y)
  else if f = 0x7#4 then some (.subn x y)
  else if f = 0xE#4 then some (.shl x y)
  else none

/-- Group E, by the low byte (R78). -/
def decodeGroupE (w : Word) : Option Instr :=
  let x := xField w
  if nnField w = 0x9E#8 then some (.skp x)
  else if nnField w = 0xA1#8 then some (.sknp x)
  else none

/-- Group F, by the low byte (R79). -/
def decodeGroupF (w : Word) : Option Instr :=
  let x := xField w
  let f := nnField w
  if f = 0x07#8 then some (.ldVxDt x)
  else if f = 0x0A#8 then some (.ldVxK x)
  else if f = 0x15#8 then some (.ldDt x)
  else if f = 0x18#8 then some (.ldSt x)
  else if f = 0x1E#8 then some (.addI x)
  else if f = 0x29#8 then some (.ldF x)
  else if f = 0x33#8 then some (.ldB x)
  else if f = 0x55#8 then some (.storeRegs x)
  else if f = 0x65#8 then some (.loadRegs x)
  else none

/-- Decode of one word: classified by the high nibble and, in groups 0, 5, 8, 9, E and F, further (R75, R91).
`none` is an illegal word (R82). -/
def decodeWord (w : Word) : Option Instr :=
  let op := opField w
  if op = 0x0#4 then some (decodeGroup0 w)
  else if op = 0x1#4 then some (.jp (nnnField w))
  else if op = 0x2#4 then some (.call (nnnField w))
  else if op = 0x3#4 then some (.seImm (xField w) (nnField w))
  else if op = 0x4#4 then some (.sneImm (xField w) (nnField w))
  else if op = 0x5#4 then decodeZeroLow w (.seReg (xField w) (yField w))
  else if op = 0x6#4 then some (.ldImm (xField w) (nnField w))
  else if op = 0x7#4 then some (.addImm (xField w) (nnField w))
  else if op = 0x8#4 then decodeGroup8 w
  else if op = 0x9#4 then decodeZeroLow w (.sneReg (xField w) (yField w))
  else if op = 0xA#4 then some (.ldI (nnnField w))
  else if op = 0xB#4 then some (.jpV0 (nnnField w))
  else if op = 0xC#4 then some (.rnd (xField w) (nnField w))
  else if op = 0xD#4 then some (.drw (xField w) (yField w) (nField w))
  else if op = 0xE#4 then decodeGroupE w
  else decodeGroupF w

/-- Why a byte sequence is no instruction. -/
inductive DecodeReject where
  /-- The word matches no row of 30_encoding.md R75 (R82); a cycle that fetches it raises DecodeError. -/
  | illegalWord (w : Word)
  /-- Fewer than the two bytes of R70. -/
  | truncated
  deriving DecidableEq, Repr

/-- The word of two bytes, big-endian: the byte at the lower address is the high one (20_memory.md R53). -/
def wordOfBytes (hi lo : Byte) : Word := hi ++ lo

/-- The high byte of a word, which lies at the lower address (R53). -/
def highByte (w : Word) : Byte := w.extractLsb' 8 8

/-- The low byte of a word, which lies at the higher address (R53). -/
def lowByte (w : Word) : Byte := w.extractLsb' 0 8

/-- Decode of a byte sequence: the instruction at its head and the bytes after it, or why there is none.
An instruction is exactly two bytes long (R70, R85). -/
def decode : List Byte → Except DecodeReject (Instr × List Byte)
  | hi :: lo :: rest =>
    match decodeWord (wordOfBytes hi lo) with
    | some i => .ok (i, rest)
    | none => .error (.illegalWord (wordOfBytes hi lo))
  | [_] => .error .truncated
  | [] => .error .truncated

/-- The word of the opcode table: the low `nbits` bits of `w`, every bit above them 0. -/
def tableWord (nbits w : Nat) : Word := BitVec.ofNat 16 (w % 2 ^ nbits)

/-- What the decoder reads from an instruction whose bits the opcode table numbers as `w`. -/
def decodeTableWord (nbits w : Nat) : Option Instr :=
  match decode [highByte (tableWord nbits w), lowByte (tableWord nbits w)] with
  | .ok (i, _) => some i
  | .error _ => none

/-- The word of format NNN: `[15:12]=op [11:0]=nnn` (R72). -/
def wordNNN (op : Nibble) (nnn : Addr12) : Word := op ++ nnn

/-- The word of format XNN, and of format X with a fixed low byte: `[15:12]=op [11:8]=x [7:0]=nn` (R72). -/
def wordXNN (op x : Nibble) (nn : Byte) : Word := op ++ x ++ nn

/-- The word of format XYN, and of format XY with a fixed low nibble: `[15:12]=op [11:8]=x [7:4]=y [3:0]=n` (R72). -/
def wordXYN (op x y n : Nibble) : Word := op ++ x ++ y ++ n

/-- The word of an instruction (the patterns of R75, the formats of R72). -/
def encode : Instr → Word
  | .cls => 0x00E0#16
  | .ret => 0x00EE#16
  | .sys nnn => wordNNN 0x0#4 nnn
  | .jp nnn => wordNNN 0x1#4 nnn
  | .call nnn => wordNNN 0x2#4 nnn
  | .seImm x nn => wordXNN 0x3#4 x nn
  | .sneImm x nn => wordXNN 0x4#4 x nn
  | .seReg x y => wordXYN 0x5#4 x y 0x0#4
  | .ldImm x nn => wordXNN 0x6#4 x nn
  | .addImm x nn => wordXNN 0x7#4 x nn
  | .ldReg x y => wordXYN 0x8#4 x y 0x0#4
  | .or x y => wordXYN 0x8#4 x y 0x1#4
  | .and x y => wordXYN 0x8#4 x y 0x2#4
  | .xor x y => wordXYN 0x8#4 x y 0x3#4
  | .add x y => wordXYN 0x8#4 x y 0x4#4
  | .sub x y => wordXYN 0x8#4 x y 0x5#4
  | .shr x y => wordXYN 0x8#4 x y 0x6#4
  | .subn x y => wordXYN 0x8#4 x y 0x7#4
  | .shl x y => wordXYN 0x8#4 x y 0xE#4
  | .sneReg x y => wordXYN 0x9#4 x y 0x0#4
  | .ldI nnn => wordNNN 0xA#4 nnn
  | .jpV0 nnn => wordNNN 0xB#4 nnn
  | .rnd x nn => wordXNN 0xC#4 x nn
  | .drw x y n => wordXYN 0xD#4 x y n
  | .skp x => wordXNN 0xE#4 x 0x9E#8
  | .sknp x => wordXNN 0xE#4 x 0xA1#8
  | .ldVxDt x => wordXNN 0xF#4 x 0x07#8
  | .ldVxK x => wordXNN 0xF#4 x 0x0A#8
  | .ldDt x => wordXNN 0xF#4 x 0x15#8
  | .ldSt x => wordXNN 0xF#4 x 0x18#8
  | .addI x => wordXNN 0xF#4 x 0x1E#8
  | .ldF x => wordXNN 0xF#4 x 0x29#8
  | .ldB x => wordXNN 0xF#4 x 0x33#8
  | .storeRegs x => wordXNN 0xF#4 x 0x55#8
  | .loadRegs x => wordXNN 0xF#4 x 0x65#8

end Sys2Proof
end

