-- ==== Sys2Proof/Machine/State.lean ====
section
/-! DEFINITION. The block's state (10_state.md), its run states and error record, the host's actions, and why a step
can stop. All of it is plain data. -/

namespace Sys2Proof.Machine

/-- The kinds of fatal error (60_exceptions.md R220). -/
inductive ErrorCode where
  | loadError
  | decodeError
  | sysUnsupported
  | stackOverflow
  | stackUnderflow
  | memoryFault
  | operandRangeError
  deriving DecidableEq, Repr

/-- The error record `e = (code, pc, opcode?, info?)` (60_exceptions.md R221). -/
structure ErrorRecord where
  code : ErrorCode
  /-- The address the failing instruction was fetched from. -/
  pc : Word
  /-- The fetched word, when both bytes were fetched. -/
  opcode : Option Word
  /-- The exact faulting address for code 5, the value of `V[x]` for code 6. -/
  info : Option Nat
  deriving DecidableEq, Repr

/-- The run state (10_state.md R40). -/
inductive Run where
  /-- The next cycle fetches and executes an instruction. -/
  | running
  /-- A key wait is pending; `x` is its destination register. -/
  | blockedOnKey (x : Nibble)
  /-- A fatal error has occurred; no further instruction executes. -/
  | halted (e : ErrorRecord)
  deriving DecidableEq, Repr

/-- One action of the host (60_exceptions.md R239). -/
inductive HostAction where
  | cycle
  | tick
  | setKey (k : Nat) (pressed : Bool)
  | restart (rom : List Byte)
  | readFramebuffer
  | readSound
  | readError
  deriving DecidableEq, Repr

/-- The 64 by 32 grid of pixels: 32 rows of 64 columns, `true` is on (10_state.md R34). -/
abbrev Framebuffer := Vector (Vector Bool 64) 32

/-- Memory as a list of (address, byte) pairs; an unlisted address reads as its boot content (Machine/Memory.lean). -/
abbrev Memory := List Host.Cell

/-- Everything the spec gives the block (10_state.md R20 to R41), and two fields of the model's own. -/
structure State where
  /-- The general registers V0 to VF (R20). -/
  v : Vector Byte 16
  /-- The index register (R28). -/
  i : Word
  /-- The program counter (R23). -/
  pc : Word
  /-- The stack pointer: how many return addresses are on the stack (R29). -/
  sp : Byte
  /-- The call stack (R30). -/
  stack : Vector Word 16
  /-- The delay timer (R31). -/
  dt : Byte
  /-- The sound timer (R32). -/
  st : Byte
  /-- The framebuffer (R34). -/
  fb : Framebuffer
  /-- The keypad, `true` is pressed (R35). -/
  key : Vector Bool 16
  /-- The run state (R40). -/
  run : Run
  /-- Memory (R36). -/
  mem : Memory
  /-- The MODEL's own (assumption log 5): how many random bytes have been drawn. -/
  draws : Nat
  /-- The MODEL's own (assumption log 4): the host's actions still to come, oldest first. -/
  pending : List HostAction
  deriving DecidableEq, Repr

/-- Why a step has no next state although the machine is modelled. -/
inductive Fault where
  /-- Raised by a load or restart with a ROM longer than 3584 bytes (60_exceptions.md R220 code 0, 70_reset_and_hazards.md
  R260): no block is created, so there is no next state. SAFE: the spec leaves no block to speak of. -/
  | loadError (romLength : Nat)
  /-- Raised by CALL and RET when SP is above 16, which 10_state.md R29 says never occurs (assumption log 3). SAFE: no
  run from a state with SP at most 16 meets it. -/
  | stackPointerOutOfRange (sp : Byte)
  deriving DecidableEq, Repr

/-- Why a step is given no meaning. -/
inductive Refusal where
  /-- Raised by an arm of exec for an instruction that has no meaning yet. SAFE. -/
  | notModelled (mnemonic : String)
  /-- Raised by a host action `set_key(k, p)` with `k` above 15, which 60_exceptions.md R237 says is no action of the
  host (assumption log 11). SAFE: the host's duty R240 rules it out. -/
  | keyIndexOutOfRange (k : Nat)
  deriving DecidableEq, Repr

/-- The state at boot (10_state.md R45) with an empty ROM, which 70_reset_and_hazards.md R260 accepts: memory holds its
boot content everywhere, so nothing is listed (assumption logs 6, 8). -/
def State.reset : State where
  v := Vector.replicate 16 0
  i := 0
  pc := BitVec.ofNat 16 Config.programStart
  sp := 0
  stack := Vector.replicate 16 0
  dt := 0
  st := 0
  fb := Vector.replicate 32 (Vector.replicate 64 false)
  key := Vector.replicate 16 false
  run := .running
  mem := []
  draws := 0
  pending := []

end Sys2Proof.Machine
end

