-- ==== Sys2Proof/Machine/Memory.lean ====
section
/-! DEFINITION. Memory: its boot content, its canonical form, reading and writing a byte, and runs of bytes
(20_memory.md). -/

namespace Sys2Proof.Machine

/-- `FONT_BASE` (00_scope.md R6, decision D14). -/
def fontBase : Nat := 0x000

/-- The glyphs of the digits 0 to 7, five rows each (20_memory.md R60). -/
def fontLow : List Byte :=
  [0xF0, 0x90, 0x90, 0x90, 0xF0] ++ [0x20, 0x60, 0x20, 0x20, 0x70] ++
  [0xF0, 0x10, 0xF0, 0x80, 0xF0] ++ [0xF0, 0x10, 0xF0, 0x10, 0xF0] ++
  [0x90, 0x90, 0xF0, 0x10, 0x10] ++ [0xF0, 0x80, 0xF0, 0x10, 0xF0] ++
  [0xF0, 0x80, 0xF0, 0x90, 0xF0] ++ [0xF0, 0x10, 0x20, 0x40, 0x40]

/-- The glyphs of the digits 8 to F, five rows each (R60). -/
def fontHigh : List Byte :=
  [0xF0, 0x90, 0xF0, 0x90, 0xF0] ++ [0xF0, 0x90, 0xF0, 0x10, 0xF0] ++
  [0xF0, 0x90, 0xF0, 0x90, 0x90] ++ [0xE0, 0x90, 0xE0, 0x90, 0xE0] ++
  [0xF0, 0x80, 0x80, 0x80, 0xF0] ++ [0xE0, 0x90, 0x90, 0x90, 0xE0] ++
  [0xF0, 0x80, 0xF0, 0x80, 0xF0] ++ [0xF0, 0x80, 0xF0, 0x80, 0x80]

/-- The font, 80 bytes (R60). -/
def font : List Byte := fontLow ++ fontHigh

/-- What an address holds at boot, the ROM apart: the font at `fontBase`, every other byte 0 (10_state.md R45,
20_memory.md R59). It is what an address that memory does not list reads as (assumption log 7). -/
def bootByte (a : Nat) : Byte :=
  if fontBase ≤ a then (font[a - fontBase]?).getD 0 else 0

/-- The byte at an address, `M[a]`. -/
def Memory.read : Memory → Nat → Byte
  | [], a => bootByte a
  | (a', b') :: m, a => if a = a' then b' else Memory.read m a

/-- The entry a byte needs: none when it is what the address holds at boot. -/
def Memory.entry (a : Nat) (b : Byte) : Memory :=
  if b = bootByte a then [] else [(a, b)]

/-- `M[a] <- b`, keeping the canonical form. -/
def Memory.write : Memory → Nat → Byte → Memory
  | [], a, b => Memory.entry a b
  | (a', b') :: m, a, b =>
    if a < a' then Memory.entry a b ++ (a', b') :: m
    else if a = a' then Memory.entry a b ++ m
    else (a', b') :: Memory.write m a b

/-- The canonical form from address `lo` up: addresses rise strictly and lie below 4096, and no entry holds what its
address holds at boot. -/
def Memory.wfFrom : Nat → Memory → Bool
  | _, [] => true
  | lo, (a, b) :: m => decide (lo ≤ a) && decide (a < Config.memSize) && (b != bootByte a) && Memory.wfFrom (a + 1) m

/-- Memory is in its canonical form. -/
def Memory.wf (m : Memory) : Bool := Memory.wfFrom 0 m

/-- `MemRead(addr, 1)` (20_memory.md R52): the byte, or the address of the MemoryFault. -/
def Memory.memRead (m : Memory) (a : Nat) : Except Nat Byte :=
  if Config.memSize ≤ a then .error a else .ok (Memory.read m a)

/-- `MemWrite(addr, 1, v)` (R52): the memory after it, or the address of the MemoryFault. -/
def Memory.memWrite (m : Memory) (a : Nat) (b : Byte) : Except Nat Memory :=
  if Config.memSize ≤ a then .error a else .ok (Memory.write m a b)

/-- `n` reads at `a`, `a + 1`, ... in rising order, the first out-of-range one faulting (43_index_memory.md R159). -/
def Memory.readRun (m : Memory) (a : Nat) : Nat → Except Nat (List Byte)
  | 0 => .ok []
  | n + 1 =>
    match Memory.memRead m a with
    | .error e => .error e
    | .ok b =>
      match Memory.readRun m (a + 1) n with
      | .error e => .error e
      | .ok bs => .ok (b :: bs)

/-- Writes of the listed bytes at `a`, `a + 1`, ... in rising order, the first out-of-range one faulting (R159). -/
def Memory.writeRun (m : Memory) (a : Nat) : List Byte → Except Nat Memory
  | [] => .ok m
  | b :: bs =>
    match Memory.memWrite m a b with
    | .error e => .error e
    | .ok m' => Memory.writeRun m' (a + 1) bs

end Sys2Proof.Machine
end

