-- ==== Sys2Proof/Machine/Ops.lean ====
section
/-! DEFINITION. The named operations over the state (00_scope.md R9), the fetch, the pc advance, and taking a fatal
error. -/

namespace Sys2Proof.Machine

/-- What a step answers. -/
abbrev Result := Host.Outcome State Fault Refusal

/-- `V[x]`. -/
def State.V (s : State) (x : Nibble) : Byte := s.v[x.toNat]'x.isLt

/-- `V[x] <- b`. -/
def State.setV (s : State) (x : Nibble) (b : Byte) : State := { s with v := s.v.set x.toNat b x.isLt }

/-- `I <- w`. -/
def State.setI (s : State) (w : Word) : State := { s with i := w }

/-- `pc <- w`. -/
def State.setPc (s : State) (w : Word) : State := { s with pc := w }

/-- `SP <- n`. -/
def State.setSp (s : State) (n : Byte) : State := { s with sp := n }

/-- `S[j]`, for a slot that exists. -/
def State.slot (s : State) (j : Nibble) : Word := s.stack[j.toNat]'j.isLt

/-- `S[j] <- w`. -/
def State.setSlot (s : State) (j : Nibble) (w : Word) : State := { s with stack := s.stack.set j.toNat w j.isLt }

/-- `DT <- b`. -/
def State.setDt (s : State) (b : Byte) : State := { s with dt := b }

/-- `ST <- b`. -/
def State.setSt (s : State) (b : Byte) : State := { s with st := b }

/-- Replaces the framebuffer. -/
def State.setFb (s : State) (fb : Framebuffer) : State := { s with fb := fb }

/-- `KEY[k]`: is key `k` pressed (60_exceptions.md R235, `is_pressed`)? -/
def State.isPressed (s : State) (k : Nibble) : Bool := s.key[k.toNat]'k.isLt

/-- `KEY[k] <- p`. -/
def State.setKeyLevel (s : State) (k : Nibble) (p : Bool) : State := { s with key := s.key.set k.toNat p k.isLt }

/-- `run <- r`. -/
def State.setRun (s : State) (r : Run) : State := { s with run := r }

/-- Replaces memory. -/
def State.setMem (s : State) (m : Memory) : State := { s with mem := m }

/-- Counts one random draw. -/
def State.setDraws (s : State) (n : Nat) : State := { s with draws := n }

/-- Replaces the host's actions still to come. -/
def State.setPending (s : State) (p : List HostAction) : State := { s with pending := p }

/-- The byte of memory at an address. -/
def State.byteAt (s : State) (a : Nat) : Byte := Memory.read s.mem a

/-- The pixel `FB[row][col]`. -/
def Framebuffer.pixel (fb : Framebuffer) (row : Fin 32) (col : Fin 64) : Bool := fb[row][col]

/-- `FB[row][col] <- p`. -/
def Framebuffer.setPixel (fb : Framebuffer) (row : Fin 32) (col : Fin 64) (p : Bool) : Framebuffer :=
  fb.set row (fb[row].set col p)

/-- The framebuffer with every pixel off. -/
def Framebuffer.clear : Framebuffer := Vector.replicate 32 (Vector.replicate 64 false)

/-- The pixel `FB[row][col]` of a state. -/
def State.pixel (s : State) (row : Fin 32) (col : Fin 64) : Bool := Framebuffer.pixel s.fb row col

/-- The fetch of the opcode at `pc` (40_cycle.md R90): byte `a`, then byte `a + 1`, the sum exact, big-endian; or the
address of the MemoryFault. -/
def State.fetch (s : State) : Except Nat Word :=
  match Memory.memRead s.mem s.pc.toNat with
  | .error e => .error e
  | .ok hi =>
    match Memory.memRead s.mem (s.pc.toNat + 1) with
    | .error e => .error e
    | .ok lo => .ok (wordOfBytes hi lo)

/-- The pc advance, `pc <- a + 2` (40_cycle.md R93, 10_state.md R25). Every meaning takes the state with `pc = a`, the
address its instruction was fetched from, and begins with this advance (assumption log 10). -/
def State.advance (s : State) : State := s.setPc (s.pc + 2)

/-- A skip, applied to the already advanced pc (41_flow.md R110). -/
def State.skip (s : State) : State := s.setPc (s.pc + 2)

/-- The advance, and the skip when the condition holds. -/
def State.advanceSkipIf (s : State) (c : Bool) : State := if c then s.advance.skip else s.advance

/-- TAKING A FATAL ERROR, the only exception there is (40_cycle.md R96, 60_exceptions.md R220 to R223): from the state before
the failing cycle, `run <- Halted(e)` and nothing else, `e` holding `pc = a`. No vector, no saved register, no return:
only a restart leaves Halted (R99, R223). -/
def State.raise (s : State) (code : ErrorCode) (opcode : Option Word) (info : Option Nat) : Result :=
  .next (s.setRun (.halted { code := code, pc := s.pc, opcode := opcode, info := info }))

/-- An instruction's raise: its opcode is recorded (assumption log 9: the word of the instruction, which is the word
fetched). -/
def State.raiseIn (s : State) (i : Instr) (code : ErrorCode) (info : Option Nat) : Result :=
  s.raise code (some (encode i)) info

/-- An instruction's access: MemoryFault names the lowest address out of range (20_memory.md R52, 43_index_memory.md R159),
and nothing is written then (R57); otherwise the instruction goes on with what the access gave. -/
def State.orMemoryFault {α : Type} (s : State) (i : Instr) (access : Except Nat α) (go : α → State) : Result :=
  match access with
  | .error a => s.raiseIn i .memoryFault (some a)
  | .ok x => .next (go x)

end Sys2Proof.Machine
end

