-- ==== Sys2Proof/Machine/Flags.lean ====
section
/-! DEFINITION. The flag computations and the flag writeback (10_state.md R21, 40_cycle.md R94). Sums and differences are
exact integers, reduced when written (00_scope.md R8, 42_alu.md R130). -/

namespace Sys2Proof.Machine

/-- `bool(c)`: 1 or 0 (R8). -/
def flagOf (c : Bool) : Byte := if c then 1 else 0

/-- The sum modulo 256 (R130). -/
def addByte (a b : Byte) : Byte := BitVec.ofNat 8 (a.toNat + b.toNat)

/-- The carry of an addition: the exact sum is above 255 (42_alu.md R137). -/
def carryFlag (a b : Byte) : Byte := flagOf (decide (a.toNat + b.toNat > 255))

/-- The difference modulo 256 (R130). -/
def subByte (a b : Byte) : Byte := BitVec.ofInt 8 ((a.toNat : Int) - (b.toNat : Int))

/-- The no-borrow flag of `a - b`: 1 when `a ≥ b` (42_alu.md R138, R140). -/
def noBorrowFlag (a b : Byte) : Byte := flagOf (decide (a.toNat ≥ b.toNat))

/-- A shift right by one bit (R139). -/
def shrByte (a : Byte) : Byte := a >>> (1 : Nat)

/-- The bit a shift right by one shifts out: bit 0 (R139). -/
def shrFlag (a : Byte) : Byte := flagOf (a.getLsbD 0)

/-- A shift left by one bit modulo 256 (R141). -/
def shlByte (a : Byte) : Byte := a <<< (1 : Nat)

/-- The bit a shift left by one shifts out: bit 7 (R141). -/
def shlFlag (a : Byte) : Byte := flagOf (a.getLsbD 7)

/-- Flag writeback: the result to `V[x]` first, the flag to VF second, so that VF holds the flag when x is 0xF
(40_cycle.md R94). -/
def State.setResultFlag (s : State) (x : Nibble) (result flag : Byte) : State :=
  (s.setV x result).setV vF flag

end Sys2Proof.Machine
end

