-- ==== Sys2Proof/Machine/Operands.lean ====
section
/-! DEFINITION. Operand forms: zero extension, the effective address, a hexadecimal digit in a register, the range of
registers V0 to Vx. -/

namespace Sys2Proof.Machine

/-- `nnn` as an absolute address, zero-extended (30_encoding.md R73). -/
def addrOf (nnn : Addr12) : Word := nnn.setWidth 16

/-- A byte zero-extended to 16 bits (00_scope.md R8). -/
def zext16 (b : Byte) : Word := b.setWidth 16

/-- The effective address of the first byte of an access through I; the k-th is the exact sum `I + k`
(43_index_memory.md R159). -/
def State.indexAddr (s : State) : Nat := s.i.toNat

/-- The value of a register that must be a hexadecimal digit: a font digit (43_index_memory.md R162) or a key index
(45_timers_keys.md R200, R201). `none` when it is above 0xF. -/
def State.digit (s : State) (x : Nibble) : Option Nibble :=
  if (s.V x).toNat > 0xF then none else some ((s.V x).setWidth 4)

/-- An instruction whose register operand must be a digit: OperandRangeError with the register's value when it is not
(60_exceptions.md R220 code 6). -/
def State.withDigit (s : State) (i : Instr) (x : Nibble) (go : Nibble → State) : Result :=
  match s.digit x with
  | none => s.raiseIn i .operandRangeError (some (s.V x).toNat)
  | some d => .next (go d)

/-- How many bytes LD [I], Vx and LD Vx, [I] move: V0 to Vx inclusive (30_encoding.md R74). -/
def rangeCount (x : Nibble) : Nat := x.toNat + 1

/-- The values of V0 to Vx, in order. -/
def State.regRange (s : State) (x : Nibble) : List Byte :=
  (List.range (rangeCount x)).map fun j => s.V (BitVec.ofNat 4 j)

/-- Puts the listed bytes into V[j], V[j+1], ... -/
def State.setRegsFrom (s : State) (j : Nat) : List Byte → State
  | [] => s
  | b :: bs => (s.setV (BitVec.ofNat 4 j) b).setRegsFrom (j + 1) bs

/-- The three decimal digits of a byte: hundreds, tens, ones (43_index_memory.md R163). -/
def bcdDigits (b : Byte) : List Byte :=
  [BitVec.ofNat 8 (b.toNat / 100), BitVec.ofNat 8 (b.toNat / 10 % 10), BitVec.ofNat 8 (b.toNat % 10)]

end Sys2Proof.Machine
end

