-- ==== Sys2Proof/Machine/Alu.lean ====
section
/-! DEFINITION. Register, arithmetic and logic instructions (42_alu.md). Operands are values of the state before the
instruction (40_cycle.md R95). -/

namespace Sys2Proof.Machine

/-- An instruction that writes one register and no flag. -/
def State.writeReg (s : State) (x : Nibble) (b : Byte) : Result := .next (s.advance.setV x b)

/-- An instruction that writes one register and VF as its flag, the flag last (40_cycle.md R94). -/
def State.writeRegFlag (s : State) (x : Nibble) (result flag : Byte) : Result :=
  .next (s.advance.setResultFlag x result flag)

/-- LD Vx, nn (R131). -/
def execLdImm (x : Nibble) (nn : Byte) (s : State) : Result := s.writeReg x nn

/-- ADD Vx, nn (R132): no flag. -/
def execAddImm (x : Nibble) (nn : Byte) (s : State) : Result := s.writeReg x (addByte (s.V x) nn)

/-- LD Vx, Vy (R133). -/
def execLdReg (x y : Nibble) (s : State) : Result := s.writeReg x (s.V y)

/-- OR Vx, Vy (R134): no flag. -/
def execOr (x y : Nibble) (s : State) : Result := s.writeReg x (s.V x ||| s.V y)

/-- AND Vx, Vy (R135): no flag. -/
def execAnd (x y : Nibble) (s : State) : Result := s.writeReg x (s.V x &&& s.V y)

/-- XOR Vx, Vy (R136): no flag. -/
def execXor (x y : Nibble) (s : State) : Result := s.writeReg x (s.V x ^^^ s.V y)

/-- ADD Vx, Vy (R137): VF is the carry. -/
def execAdd (x y : Nibble) (s : State) : Result :=
  s.writeRegFlag x (addByte (s.V x) (s.V y)) (carryFlag (s.V x) (s.V y))

/-- SUB Vx, Vy (R138): VF is 1 when there is no borrow. -/
def execSub (x y : Nibble) (s : State) : Result :=
  s.writeRegFlag x (subByte (s.V x) (s.V y)) (noBorrowFlag (s.V x) (s.V y))

/-- SHR Vx (R139): `V[x]` in place; the field `y` only stands in the word (30_encoding.md R81). -/
def execShr (x _y : Nibble) (s : State) : Result := s.writeRegFlag x (shrByte (s.V x)) (shrFlag (s.V x))

/-- SUBN Vx, Vy (R140): `V[y] - V[x]`; VF is 1 when there is no borrow. -/
def execSubn (x y : Nibble) (s : State) : Result :=
  s.writeRegFlag x (subByte (s.V y) (s.V x)) (noBorrowFlag (s.V y) (s.V x))

/-- SHL Vx (R141): `V[x]` in place; the field `y` only stands in the word (30_encoding.md R81). -/
def execShl (x _y : Nibble) (s : State) : Result := s.writeRegFlag x (shlByte (s.V x)) (shlFlag (s.V x))

/-- `draw_byte()`: the free byte of the next draw (R142, assumption log 5). -/
def State.drawByte (s : State) : Byte := Config.freeByte s.draws

/-- RND Vx, nn (R142): the drawn byte under the mask; the draw is used up. -/
def execRnd (x : Nibble) (nn : Byte) (s : State) : Result :=
  .next ((s.advance.setDraws (s.draws + 1)).setV x (s.drawByte &&& nn))

end Sys2Proof.Machine
end

