-- ==== Sys2Proof/Machine/Display.lean ====
section
/-! DEFINITION. Display instructions: CLS and the XOR-blitter DRW (44_display.md). -/

namespace Sys2Proof.Machine

/-- CLS (R181): every pixel off, no flag. -/
def execCls (s : State) : Result := .next (s.advance.setFb Framebuffer.clear)

/-- A draw under way: the framebuffer and whether a pixel has gone from 1 to 0. -/
structure Blit where
  fb : Framebuffer
  collision : Bool
  deriving DecidableEq, Repr

/-- The sprite's origin column, `V[x] mod 64` (R180). -/
def originCol (b : Byte) : Nat := b.toNat % 64

/-- The sprite's origin row, `V[y] mod 32` (R180). -/
def originRow (b : Byte) : Nat := b.toNat % 32

/-- Toggles one pixel, noting a collision. -/
def Blit.toggle (d : Blit) (row : Fin 32) (col : Fin 64) : Blit where
  fb := Framebuffer.setPixel d.fb row col (!Framebuffer.pixel d.fb row col)
  collision := d.collision || Framebuffer.pixel d.fb row col

/-- The sprite pixel `c` of a row byte (R180): bit 7 is column 0; columns of 64 and more are clipped. -/
def Blit.bit (b : Byte) (row : Fin 32) (x0 : Nat) (d : Blit) (c : Nat) : Blit :=
  if b.getLsbD (7 - c) then
    if h : x0 + c < 64 then d.toggle row ⟨x0 + c, h⟩ else d
  else d

/-- One row byte of a sprite, columns 0 to 7. -/
def Blit.row (b : Byte) (row : Fin 32) (x0 : Nat) (d : Blit) : Blit :=
  (List.range 8).foldl (Blit.bit b row x0) d

/-- The rows of a sprite, from framebuffer row `y` down; rows wrap modulo 32 (R180). -/
def Blit.rows (x0 : Nat) : Nat → List Byte → Blit → Blit
  | _, [], d => d
  | y, b :: bs, d => Blit.rows x0 (y + 1) bs (Blit.row b (Fin.ofNat 32 y) x0 d)

/-- The whole draw on a framebuffer (R182). -/
def drawSprite (fb : Framebuffer) (x0 y0 : Nat) (sprite : List Byte) : Blit :=
  Blit.rows x0 y0 sprite { fb := fb, collision := false }

/-- DRW Vx, Vy, n (R182): every read before any write; VF is written last, on every successful draw. -/
def execDrw (x y n : Nibble) (s : State) : Result :=
  s.orMemoryFault (.drw x y n) (Memory.readRun s.mem s.indexAddr n.toNat) fun sprite =>
    let d := drawSprite s.fb (originCol (s.V x)) (originRow (s.V y)) sprite
    (s.advance.setFb d.fb).setV vF (flagOf d.collision)

end Sys2Proof.Machine
end

