-- ==== Sys2Proof/Machine/Flow.lean ====
section
/-! DEFINITION. Control flow (41_flow.md). -/

namespace Sys2Proof.Machine

/-- SYS nnn (R111): always raises SysUnsupported. -/
def execSys (nnn : Addr12) (s : State) : Result := s.raiseIn (.sys nnn) .sysUnsupported none

/-- RET (R112). With SP above 16, which never occurs (10_state.md R29), it faults by name. -/
def execRet (s : State) : Result :=
  if s.sp.toNat = 0 then s.raiseIn .ret .stackUnderflow none
  else if s.sp.toNat > Config.stackDepth then .fault (.stackPointerOutOfRange s.sp)
  else .next ((s.advance.setSp (s.sp - 1)).setPc (s.slot (BitVec.ofNat 4 (s.sp.toNat - 1))))

/-- JP nnn (R113). -/
def execJp (nnn : Addr12) (s : State) : Result := .next (s.advance.setPc (addrOf nnn))

/-- CALL nnn (R114). With SP above 16, which never occurs (10_state.md R29), it faults by name. -/
def execCall (nnn : Addr12) (s : State) : Result :=
  if s.sp.toNat = Config.stackDepth then s.raiseIn (.call nnn) .stackOverflow none
  else if s.sp.toNat > Config.stackDepth then .fault (.stackPointerOutOfRange s.sp)
  else .next (((s.advance.setSlot (BitVec.ofNat 4 s.sp.toNat) s.advance.pc).setSp (s.sp + 1)).setPc (addrOf nnn))

/-- SE Vx, nn (R115). -/
def execSeImm (x : Nibble) (nn : Byte) (s : State) : Result := .next (s.advanceSkipIf (s.V x == nn))

/-- SNE Vx, nn (R116). -/
def execSneImm (x : Nibble) (nn : Byte) (s : State) : Result := .next (s.advanceSkipIf (s.V x != nn))

/-- SE Vx, Vy (R117). -/
def execSeReg (x y : Nibble) (s : State) : Result := .next (s.advanceSkipIf (s.V x == s.V y))

/-- SNE Vx, Vy (R118). -/
def execSneReg (x y : Nibble) (s : State) : Result := .next (s.advanceSkipIf (s.V x != s.V y))

/-- JP V0, nnn (R119): the register added is always V0. -/
def execJpV0 (nnn : Addr12) (s : State) : Result := .next (s.advance.setPc (addrOf nnn + zext16 (s.V 0x0#4)))

end Sys2Proof.Machine
end

