-- ==== Sys2Proof/Machine/IndexMemory.lean ====
section
/-! DEFINITION. Index register and memory instructions (43_index_memory.md). No access changes I (R159). -/

namespace Sys2Proof.Machine

/-- LD I, nnn (R160). -/
def execLdI (nnn : Addr12) (s : State) : Result := .next (s.advance.setI (addrOf nnn))

/-- ADD I, Vx (R161): modulo 65536, no flag. -/
def execAddI (x : Nibble) (s : State) : Result := .next (s.advance.setI (s.i + zext16 (s.V x)))

/-- The address of a digit's glyph, `FONT_BASE + 5 * d` (R162). -/
def glyphAddr (d : Nibble) : Word := BitVec.ofNat 16 (fontBase + 5 * d.toNat)

/-- LD F, Vx (R162). -/
def execLdF (x : Nibble) (s : State) : Result :=
  s.withDigit (.ldF x) x fun d => s.advance.setI (glyphAddr d)

/-- LD B, Vx (R163). -/
def execLdB (x : Nibble) (s : State) : Result :=
  s.orMemoryFault (.ldB x) (Memory.writeRun s.mem s.indexAddr (bcdDigits (s.V x))) fun m => s.advance.setMem m

/-- LD [I], Vx (R164). -/
def execStoreRegs (x : Nibble) (s : State) : Result :=
  s.orMemoryFault (.storeRegs x) (Memory.writeRun s.mem s.indexAddr (s.regRange x)) fun m => s.advance.setMem m

/-- LD Vx, [I] (R165): every byte is read before any register is written. -/
def execLoadRegs (x : Nibble) (s : State) : Result :=
  s.orMemoryFault (.loadRegs x) (Memory.readRun s.mem s.indexAddr (rangeCount x)) fun bs => s.advance.setRegsFrom 0 bs

end Sys2Proof.Machine
end

