-- ==== Sys2Proof/Machine/KeysTimers.lean ====
section
/-! DEFINITION. Keypad and timer instructions (45_timers_keys.md). -/

namespace Sys2Proof.Machine

/-- SKP Vx (R200). -/
def execSkp (x : Nibble) (s : State) : Result :=
  s.withDigit (.skp x) x fun k => s.advanceSkipIf (s.isPressed k)

/-- SKNP Vx (R201). -/
def execSknp (x : Nibble) (s : State) : Result :=
  s.withDigit (.sknp x) x fun k => s.advanceSkipIf (!s.isPressed k)

/-- LD Vx, DT (R202). -/
def execLdVxDt (x : Nibble) (s : State) : Result := .next (s.advance.setV x s.dt)

/-- LD Vx, K (R203): pc is held on this instruction. -/
def execLdVxK (x : Nibble) (s : State) : Result := .next ((s.advance.setPc s.pc).setRun (.blockedOnKey x))

/-- LD DT, Vx (R204). -/
def execLdDt (x : Nibble) (s : State) : Result := .next (s.advance.setDt (s.V x))

/-- LD ST, Vx (R205). -/
def execLdSt (x : Nibble) (s : State) : Result := .next (s.advance.setSt (s.V x))

end Sys2Proof.Machine
end

