-- ==== Sys2Proof/Machine/Cycle.lean ====
section
/-! DEFINITION. One cycle (40_cycle.md R97 to R99). -/

namespace Sys2Proof.Machine

/-- Decode and execute of a fetched word (R91, R92): an illegal word raises DecodeError. -/
def executeWord (w : Word) (s : State) : Result :=
  match decodeWord w with
  | none => s.raise .decodeError (some w) none
  | some i => exec i s

/-- The cycle in Running (R97), its checks in the order of R100: a fetch fault has no opcode (60_exceptions.md R220 code 5). -/
def runningCycle (s : State) : Result :=
  match s.fetch with
  | .error a => s.raise .memoryFault none (some a)
  | .ok w => executeWord w s

/-- `cycle()`: in BlockedOnKey (R98) and in Halted (R99) it changes nothing. -/
def cycle (s : State) : Result :=
  match s.run with
  | .running => runningCycle s
  | .blockedOnKey _ => .next s
  | .halted _ => .next s

end Sys2Proof.Machine
end

