-- ==== Sys2Proof/Machine/HostActions.lean ====
section
/-! DEFINITION. The host interface (60_exceptions.md R228 to R242, 70_reset_and_hazards.md R260 to R263): load, tick,
set_key with the completion of the key wait, restart, and what the host reads. -/

namespace Sys2Proof.Machine

/-- A timer counts down and stays at 0 (60_exceptions.md R229, R230). -/
def countDown (b : Byte) : Byte := if b.toNat > 0 then b - 1 else b

/-- `tick()` (R229, R231, R232). -/
def State.tick (s : State) : State :=
  match s.run with
  | .halted _ => s
  | .running => (s.setDt (countDown s.dt)).setSt (countDown s.st)
  | .blockedOnKey _ => (s.setDt (countDown s.dt)).setSt (countDown s.st)

/-- Completion of the key wait of register `x` by key `k` (45_timers_keys.md R206). -/
def State.completeKeyWait (s : State) (x k : Nibble) : State :=
  (((s.setKeyLevel k true).setV x (k.setWidth 8)).setPc (s.pc + 2)).setRun .running

/-- `set_key(k, p)` for a key that exists (R236). -/
def State.setKey (s : State) (k : Nibble) (p : Bool) : State :=
  match s.run with
  | .halted _ => s
  | .blockedOnKey x => if p && !s.isPressed k then s.completeKeyWait x k else s.setKeyLevel k p
  | .running => s.setKeyLevel k p

/-- The ROM check and the boot memory (70_reset_and_hazards.md R260, R261): the ROM over the boot content. -/
def loadMemory (rom : List Byte) : Except Nat Memory :=
  if rom.length > Config.maxRom then .error rom.length else Memory.writeRun [] Config.programStart rom

/-- `load(rom)` (R260, R261): the block in its boot state, or LoadError and no block (assumption log 2). -/
def load (rom : List Byte) : Result :=
  match loadMemory rom with
  | .error n => .fault (.loadError n)
  | .ok m => .next (State.reset.setMem m)

/-- A restart (R263): all state is discarded and the ROM loaded; the model's own fields go on (assumption log 4, log 5). -/
def State.restart (s : State) (rom : List Byte) : Result :=
  match load rom with
  | .next t => .next ((t.setDraws s.draws).setPending s.pending)
  | .fault f => .fault f
  | .refused r => .refused r

/-- One action of the host as one atomic step (60_exceptions.md R238, R239). An index above 15 is no action (R237). -/
def perform (a : HostAction) (s : State) : Result :=
  match a with
  | .cycle => cycle s
  | .tick => .next s.tick
  | .setKey k p => if k < 16 then .next (s.setKey (BitVec.ofNat 4 k) p) else .refused (.keyIndexOutOfRange k)
  | .restart rom => s.restart rom
  | .readFramebuffer => .next s
  | .readSound => .next s
  | .readError => .next s

/-- The host's oldest action still to come, or a cycle when none is listed (R238, assumption log 4). -/
def nextAction (s : State) : Result :=
  match s.pending with
  | [] => cycle s
  | a :: rest => perform a (s.setPending rest)

/-- What the host reads as the framebuffer (R241). -/
def State.framebuffer (s : State) : Framebuffer := s.fb

/-- Whether the sound output is active (R242). -/
def State.soundActive (s : State) : Bool := s.st != 0

/-- What the host reads as the error record (R221). -/
def State.errorRecord (s : State) : Option ErrorRecord :=
  match s.run with
  | .halted e => some e
  | .running => none
  | .blockedOnKey _ => none

/-- Places a word in memory, the high byte at the lower address (20_memory.md R53); an address that does not exist holds
nothing. -/
def Memory.placeWord (m : Memory) (a : Nat) (w : Word) : Memory :=
  if a + 1 < Config.memSize then Memory.write (Memory.write m a (highByte w)) (a + 1) (lowByte w) else m

/-- The state whose very next step fetches and runs the word (assumption log 6): the word at pc, the block Running, and no
host action before the cycle. -/
def State.placeFetchWord (s : State) (w : Word) : State :=
  ((s.setMem (Memory.placeWord s.mem s.pc.toNat w)).setRun .running).setPending []

end Sys2Proof.Machine
end

