-- ==== Sys2Proof/Machine/Step.lean ====
section
/-! DEFINITION. The step of the machine: one action of the host (60_exceptions.md R238). -/

namespace Sys2Proof.Machine

/-- One step: the oldest host action still to come, or one cycle. -/
def step (s : State) : Host.Outcome State Fault Refusal := nextAction s

/-- The instruction whose opcode-table bits are `w`, stored where `step` fetches next. -/
def State.withFetchWord (s : State) (nbits w : Nat) : State := s.placeFetchWord (tableWord nbits w)

end Sys2Proof.Machine
end

