-- ==== Sys2Proof/Safety.lean ====
section
/-! DEFINITION. What claims are stated in: the parts of the state a frame speaks of, the invariants, the pc an instruction
leaves, the pixels a sprite covers, and the host's duties. -/

namespace Sys2Proof.Machine

/-- The smallest pieces of the state, the pc apart (10_state.md section 9). -/
inductive Part where
  | reg (x : Nibble)
  | index
  | stackPointer
  | slot (j : Nibble)
  | delayTimer
  | soundTimer
  | pixel (row : Fin 32) (col : Fin 64)
  | key (k : Nibble)
  | runState
  | byte (a : Nat)
  | draws
  | pending
  deriving DecidableEq, Repr

/-- The part is the same in both states. -/
def Part.same (p : Part) (s t : State) : Prop :=
  match p with
  | .reg x => t.V x = s.V x
  | .index => t.i = s.i
  | .stackPointer => t.sp = s.sp
  | .slot j => t.slot j = s.slot j
  | .delayTimer => t.dt = s.dt
  | .soundTimer => t.st = s.st
  | .pixel row col => t.pixel row col = s.pixel row col
  | .key k => t.isPressed k = s.isPressed k
  | .runState => t.run = s.run
  | .byte a => t.byteAt a = s.byteAt a
  | .draws => t.draws = s.draws
  | .pending => t.pending = s.pending

/-- THE FRAME: every part of the state but the ones `changed` names is the same in `t` as in `s`: every register, the index
register, the stack, the timers, every pixel, every key, the run state and every byte of memory. -/
def Untouched (s t : State) (changed : Part → Prop) : Prop := ∀ p, ¬ changed p → p.same s t

/-- The state of an instruction that ends in a fatal error: the state before it, with only `run` changed
(40_cycle.md R96, 60_exceptions.md R221, R222). -/
def haltedIn (i : Instr) (s : State) (code : ErrorCode) (info : Option Nat) : State :=
  { s with run := .halted { code := code, pc := s.pc, opcode := some (encode i), info := info } }

/-- The block has not halted (10_state.md R40): a safe run is one whose states are live. -/
def State.live (s : State) : Prop := ∀ e, s.run ≠ .halted e

/-- What 60_exceptions.md R220 and R221 say of a record that a block can hold: it is no LoadError (which leaves no block), the
opcode is missing only when the fetch itself faulted, and `info` is there for codes 5 and 6 alone: an address that does not
exist, or a byte above 0xF. -/
def ErrorRecord.fits (e : ErrorRecord) : Prop :=
  e.code ≠ .loadError ∧ (e.opcode = none → e.code = .memoryFault) ∧
  (∀ n, e.info = some n → (e.code = .memoryFault ∧ 4096 ≤ n) ∨ (e.code = .operandRangeError ∧ 15 < n ∧ n < 256)) ∧
  (e.info = none → e.code ≠ .memoryFault ∧ e.code ≠ .operandRangeError)

/-- INVARIANT of every step: memory is in its canonical form, SP is at most 16 (10_state.md R29), and a halted block holds
the pc its error record names (60_exceptions.md R221). -/
def State.Inv (s : State) : Prop :=
  Memory.wf s.mem = true ∧ s.sp.toNat ≤ 16 ∧ ∀ e, s.run = .halted e → e.pc = s.pc ∧ e.fits

/-- INVARIANT of every step: the pc stays at or below 0x10FE, the largest value any instruction writes (10_state.md R25); a
return address is at most 0x1000, and a waiting block stands on an instruction it fetched. -/
def State.pcInReach (s : State) : Prop :=
  s.pc.toNat ≤ 0x10FE ∧ (∀ j, (s.slot j).toNat ≤ 0x1000) ∧ ∀ x, s.run = .blockedOnKey x → s.pc.toNat ≤ 0xFFE

/-- The pc after an instruction that raises nothing, `a` being `s.pc` (10_state.md R24). -/
def pcAfter (i : Instr) (s : State) : Word :=
  match i with
  | .seImm x nn => if s.V x = nn then s.pc + 4 else s.pc + 2
  | .sneImm x nn => if s.V x = nn then s.pc + 2 else s.pc + 4
  | .seReg x y => if s.V x = s.V y then s.pc + 4 else s.pc + 2
  | .sneReg x y => if s.V x = s.V y then s.pc + 2 else s.pc + 4
  | .skp x => if s.isPressed ((s.V x).setWidth 4) then s.pc + 4 else s.pc + 2
  | .sknp x => if s.isPressed ((s.V x).setWidth 4) then s.pc + 2 else s.pc + 4
  | .jp nnn => BitVec.ofNat 16 nnn.toNat
  | .call nnn => BitVec.ofNat 16 nnn.toNat
  | .jpV0 nnn => BitVec.ofNat 16 (nnn.toNat + (s.V 0).toNat)
  | .ret => s.slot (BitVec.ofNat 4 (s.sp.toNat - 1))
  | .ldVxK _ => s.pc
  | .cls | .sys _ | .ldImm _ _ | .addImm _ _ | .ldReg _ _ | .or _ _ | .and _ _ | .xor _ _ | .add _ _ | .sub _ _
  | .shr _ _ | .subn _ _ | .shl _ _ | .ldI _ | .rnd _ _ | .drw _ _ _ | .ldVxDt _ | .ldDt _ | .ldSt _ | .addI _
  | .ldF _ | .ldB _ | .storeRegs _ | .loadRegs _ => s.pc + 2

/-- The registers an instruction may write as its named destination: x, or V0 to Vx for LD Vx, [I] (10_state.md R21, R22). -/
def destination (i : Instr) (r : Nibble) : Prop :=
  match i with
  | .ldImm x _ | .addImm x _ | .ldReg x _ | .or x _ | .and x _ | .xor x _ | .add x _ | .sub x _ | .shr x _ | .subn x _
  | .shl x _ | .rnd x _ | .ldVxDt x => r = x
  | .loadRegs x => r.toNat ≤ x.toNat
  | .cls | .ret | .sys _ | .jp _ | .call _ | .seImm _ _ | .sneImm _ _ | .seReg _ _ | .sneReg _ _ | .ldI _ | .jpV0 _
  | .drw _ _ _ | .skp _ | .sknp _ | .ldVxK _ | .ldDt _ | .ldSt _ | .addI _ | .ldF _ | .ldB _ | .storeRegs _ => False

/-- The six instructions that write VF as a flag (10_state.md R21). -/
def writesFlag (i : Instr) : Prop :=
  match i with
  | .add _ _ | .sub _ _ | .shr _ _ | .subn _ _ | .shl _ _ | .drw _ _ _ => True
  | .cls | .ret | .sys _ | .jp _ | .call _ | .seImm _ _ | .sneImm _ _ | .seReg _ _ | .ldImm _ _ | .addImm _ _
  | .ldReg _ _ | .or _ _ | .and _ _ | .xor _ _ | .sneReg _ _ | .ldI _ | .jpV0 _ | .rnd _ _ | .skp _ | .sknp _
  | .ldVxDt _ | .ldVxK _ | .ldDt _ | .ldSt _ | .addI _ | .ldF _ | .ldB _ | .storeRegs _ | .loadRegs _ => False

/-- The framebuffer pixels a sprite of `n` row bytes at column `x0` and row `y0` toggles (44_display.md R180): bit `7 - j`
of row byte `k` falls on row `(y0 + k) mod 32` and on column `x0 + j`, if there is such a column. -/
def Covers (x0 y0 n : Nat) (rowByte : Nat → Byte) (r : Fin 32) (c : Fin 64) : Prop :=
  ∃ k j, k < n ∧ j < 8 ∧ (r : Nat) = (y0 + k) % 32 ∧ (c : Nat) = x0 + j ∧ (rowByte k).getLsbD (7 - j) = true

/-- The pixels that DRW Vx, Vy, n toggles in a state. -/
def drawCovers (s : State) (x y n : Nibble) (r : Fin 32) (c : Fin 64) : Prop :=
  Covers ((s.V x).toNat % 64) ((s.V y).toNat % 32) n.toNat (fun k => s.byteAt (s.i.toNat + k)) r c

/-- An outcome with its next state changed by `f`. -/
def mapNext (f : State → State) (r : Result) : Result :=
  match r with
  | .next t => .next (f t)
  | .fault e => .fault e
  | .refused e => .refused e

/-- Two states that differ at most in the stack entries at SP and above, which no instruction reads (10_state.md R30). -/
def sameButStale (s t : State) : Prop :=
  t = { s with stack := t.stack } ∧ ∀ j : Nibble, j.toNat < s.sp.toNat → t.slot j = s.slot j

/-- Two outcomes that are alike but for stale stack entries: the same stop, or two next states that differ so. -/
def outcomesSameButStale (r r' : Result) : Prop :=
  match r, r' with
  | .next s, .next t => sameButStale s t
  | .fault e, .fault e' => e = e'
  | .refused e, .refused e' => e = e'
  | .next _, .fault _ | .next _, .refused _ | .fault _, .next _ | .fault _, .refused _ | .refused _, .next _
  | .refused _, .fault _ => False

/-- The listed host actions, one after another (60_exceptions.md R238). -/
def performAll : List HostAction → State → Result
  | [], s => .next s
  | a :: rest, s =>
    match perform a s with
    | .next t => performAll rest t
    | .fault e => .fault e
    | .refused e => .refused e

/-- The first `n` actions of an endless schedule. -/
def firstActions (schedule : Nat → HostAction) (n : Nat) : List HostAction := (List.range n).map schedule

/-- THE HOST'S DUTIES (60_exceptions.md R240): a key index is below 16, and cycles and ticks never cease. -/
def hostDuties (schedule : Nat → HostAction) : Prop :=
  (∀ n k p, schedule n = .setKey k p → k < 16) ∧ (∀ n, ∃ m, n ≤ m ∧ schedule m = .cycle) ∧
  ∀ n, ∃ m, n ≤ m ∧ schedule m = .tick

end Sys2Proof.Machine
end

