-- ==== Sys2Proof/Certificates/Slice0/Obligations.lean ====
section
/-! DEFINITION. The statements for the provers, from the numbered rules of spec/. "The spec's own decision D<n>" names a
row of spec/92_eei_decisions.md: a clause that rests on one is the spec's choice where its source is silent. -/

open Sys2Proof Sys2Proof.Machine

/-! ## Encoding -/

/-- Decode of encode, every operand at every value its field admits (30_encoding.md R72 to R81). The bit patterns are the
spec's general-knowledge passage K1 (assumption log 12). -/
def Obligations.DecodeOfEncodeIsTheInstruction : Prop :=
  ∀ i : Instr, i.wellFormed = true → decodeWord (encode i) = some i ∧
    ∀ rest, decode (highByte (encode i) :: lowByte (encode i) :: rest) = .ok (i, rest)

/-- Each legal word has one meaning and no bit of it is dropped, the unused field y of the shifts included (30_encoding.md
R81, R84): so the opcode an error records is the word fetched (assumption log 9). -/
def Obligations.EncodeOfDecodeIsTheWord : Prop :=
  ∀ (w : Word) (i : Instr), decodeWord w = some i → encode i = w ∧ i.wellFormed = true

/-- A word of each family, written out from 30_encoding.md R75, and three illegal ones (R82). -/
def Obligations.SpecWordsDecode : Prop :=
  decodeWord 0x00EE#16 = some .ret ∧ decodeWord 0x0123#16 = some (.sys 0x123#12) ∧
  decodeWord 0x3342#16 = some (.seImm 0x3#4 0x42#8) ∧ decodeWord 0x8AB5#16 = some (.sub 0xA#4 0xB#4) ∧
  decodeWord 0xA2F0#16 = some (.ldI 0x2F0#12) ∧ decodeWord 0xF255#16 = some (.storeRegs 0x2#4) ∧
  decodeWord 0xD015#16 = some (.drw 0x0#4 0x1#4 0x5#4) ∧ decodeWord 0xE2A1#16 = some (.sknp 0x2#4) ∧
  decodeWord 0xF50A#16 = some (.ldVxK 0x5#4) ∧
  decodeWord 0x5121#16 = none ∧ decodeWord 0x8128#16 = none ∧ decodeWord 0xF1FF#16 = none

/-- The illegal words, group by group (30_encoding.md R82; strict nibbles are the spec's own decisions D2 and D17,
assumption logs 12, 17). -/
def Obligations.IllegalWordsAreThoseOfTheMap : Prop :=
  ∀ w : Word, decodeWord w = none ↔
    ((opField w = 0x5#4 ∨ opField w = 0x9#4) ∧ nField w ≠ 0x0#4) ∨
    (opField w = 0x8#4 ∧ nField w ∈ [0x8#4, 0x9#4, 0xA#4, 0xB#4, 0xC#4, 0xD#4, 0xF#4]) ∨
    (opField w = 0xE#4 ∧ nnField w ∉ [0x9E#8, 0xA1#8]) ∨
    (opField w = 0xF#4 ∧
      nnField w ∉ [0x07#8, 0x0A#8, 0x15#8, 0x18#8, 0x1E#8, 0x29#8, 0x33#8, 0x55#8, 0x65#8])

/-! ## The cycle -/

/-- A step in Running executes the instruction whose two bytes stand at the pc, the high byte at the lower address
(40_cycle.md R90 to R93, R97): when the host's next action is a cycle, or none is listed (assumption log 4). -/
def Obligations.StepRunsTheDecodedInstruction : Prop :=
  ∀ (s : State) (i : Instr), s.run = .running → s.pc.toNat + 1 < 4096 →
    decodeWord (s.byteAt s.pc.toNat ++ s.byteAt (s.pc.toNat + 1)) = some i →
    (s.pending = [] → step s = exec i s) ∧
    (∀ rest, s.pending = .cycle :: rest → step s = exec i { s with pending := rest })

/-- A fetch that leaves memory halts the block: at a when a is 4096 or more, else at a + 1 (40_cycle.md R90; the fatal policy is
the spec's own decision D3, assumption log 17). Nothing but run changes and no opcode is recorded. -/
def Obligations.FetchOutsideMemoryHalts : Prop :=
  ∀ s : State, s.run = .running →
    (4096 ≤ s.pc.toNat → cycle s = .next { s with run := .halted ⟨.memoryFault, s.pc, none, some s.pc.toNat⟩ }) ∧
    (s.pc.toNat = 4095 → cycle s = .next { s with run := .halted ⟨.memoryFault, s.pc, none, some 4096⟩ })

/-- An illegal word halts the block with DecodeError, the word and the pc recorded (30_encoding.md R82, 40_cycle.md R91; the
fatal policy is the spec's own decision D2, assumption log 17). -/
def Obligations.IllegalWordHalts : Prop :=
  ∀ s : State, s.run = .running → s.pc.toNat + 1 < 4096 →
    decodeWord (s.byteAt s.pc.toNat ++ s.byteAt (s.pc.toNat + 1)) = none →
    cycle s = .next { s with
      run := .halted ⟨.decodeError, s.pc, some (s.byteAt s.pc.toNat ++ s.byteAt (s.pc.toNat + 1)), none⟩ }

/-- A cycle while blocked changes nothing, and only a press transition (or a restart) ends the wait (40_cycle.md R98). -/
def Obligations.BlockedCycleChangesNothing : Prop :=
  ∀ (s : State) (x : Nibble), s.run = .blockedOnKey x →
    cycle s = .next s ∧
    ∀ (a : HostAction) (t : State), perform a s = .next t → t.run ≠ .blockedOnKey x →
      (∃ k : Nat, k < 16 ∧ a = .setKey k true ∧ s.isPressed (BitVec.ofNat 4 k) = false) ∨ ∃ rom, a = .restart rom

/-- A halted block ignores cycles, ticks and key changes (40_cycle.md R99, 60_exceptions.md R232, R236; the spec's own decision D22,
assumption log 1). -/
def Obligations.HaltedBlockIgnoresTheHost : Prop :=
  ∀ (s : State) (e : ErrorRecord), s.run = .halted e →
    perform .cycle s = .next s ∧ perform .tick s = .next s ∧
    ∀ (k : Nat) (p : Bool), k < 16 → perform (.setKey k p) s = .next s

/-- The boot state of the empty ROM (10_state.md R45, 20_memory.md R59, R60). The values beside pc and the framebuffer are the spec's
own decisions D14, D18 and D19 (assumption logs 6, 7, 8, 13). -/
def Obligations.ResetIsTheBootState : Prop :=
  State.reset.pc = 0x200#16 ∧ State.reset.i = 0 ∧ State.reset.sp = 0 ∧ State.reset.dt = 0 ∧ State.reset.st = 0 ∧
  State.reset.run = .running ∧ (∀ x, State.reset.V x = 0) ∧ (∀ j, State.reset.slot j = 0) ∧
  (∀ k, State.reset.isPressed k = false) ∧ (∀ r c, State.reset.pixel r c = false) ∧
  (List.range 80).map State.reset.byteAt =
    [0xF0, 0x90, 0x90, 0x90, 0xF0, 0x20, 0x60, 0x20, 0x20, 0x70, 0xF0, 0x10, 0xF0, 0x80, 0xF0, 0xF0, 0x10, 0xF0, 0x10, 0xF0] ++
    [0x90, 0x90, 0xF0, 0x10, 0x10, 0xF0, 0x80, 0xF0, 0x10, 0xF0, 0xF0, 0x80, 0xF0, 0x90, 0xF0, 0xF0, 0x10, 0x20, 0x40, 0x40] ++
    [0xF0, 0x90, 0xF0, 0x90, 0xF0, 0xF0, 0x90, 0xF0, 0x10, 0xF0, 0xF0, 0x90, 0xF0, 0x90, 0x90, 0xE0, 0x90, 0xE0, 0x90, 0xE0] ++
    [0xF0, 0x80, 0x80, 0x80, 0xF0, 0xE0, 0x90, 0x90, 0x90, 0xE0, 0xF0, 0x80, 0xF0, 0x80, 0xF0, 0xF0, 0x80, 0xF0, 0x80, 0x80] ∧
  ∀ a, 80 ≤ a → State.reset.byteAt a = 0

/-! ## Invariants and rules of the whole machine -/

/-- Both invariants hold at reset. -/
def Obligations.ResetMeetsTheInvariants : Prop := State.reset.Inv ∧ State.reset.pcInReach

/-- Every step, whatever the host does, keeps memory canonical, SP at most 16 (10_state.md R29) and the error record true of the
state it halted (60_exceptions.md R220, R221). -/
def Obligations.StepKeepsTheInvariant : Prop :=
  ∀ s t : State, s.Inv → step s = .next t → t.Inv

/-- No step takes the pc above 0x10FE (10_state.md R25, the spec's own decision D23, assumption log 15). -/
def Obligations.StepKeepsThePcInReach : Prop :=
  ∀ s t : State, s.pcInReach → step s = .next t → t.pcInReach

/-- A failing instruction is all or nothing: it leaves the state as it was, with only run changed, and records its own word and
address (40_cycle.md R96, the spec's own decision D30, assumption log 1). -/
def Obligations.FatalErrorChangesOnlyRun : Prop :=
  ∀ (i : Instr) (s t : State) (e : ErrorRecord), s.run = .running → exec i s = .next t → t.run = .halted e →
    t = { s with run := .halted e } ∧ e.pc = s.pc ∧ e.opcode = some (encode i) ∧ e.fits

/-- The pc every instruction leaves (10_state.md R24). -/
def Obligations.PcAfterEveryInstruction : Prop :=
  ∀ (i : Instr) (s t : State), s.run = .running → exec i s = .next t →
    (t.live → t.pc = pcAfter i s) ∧ (¬ t.live → t.pc = s.pc)

/-- The run-state machine (40_cycle.md R101): LD Vx, K and nothing else blocks; a press transition and nothing else unblocks; a
halt is final but for a restart (the last is the spec's own decision D22, assumption log 1). -/
def Obligations.RunStateTransitions : Prop :=
  (∀ (i : Instr) (s t : State), s.run = .running → exec i s = .next t →
    ∀ x, t.run = .blockedOnKey x ↔ i = .ldVxK x) ∧
  (∀ (s t : State) (a : HostAction), perform a s = .next t → (∀ rom, a ≠ .restart rom) →
    (∀ e, s.run = .halted e → t.run = .halted e) ∧
    (s.run = .running → a ≠ .cycle → t.run = .running) ∧
    ∀ x, s.run = .blockedOnKey x →
      (∀ k : Nat, a = .setKey k true → s.isPressed (BitVec.ofNat 4 k) = false →
        t.run = .running ∧ t.pc = s.pc + 2 ∧ (t.V x).toNat = k) ∧
      ((∀ k : Nat, a = .setKey k true → s.isPressed (BitVec.ofNat 4 k) = true) → t.run = .blockedOnKey x))

/-- VF changes only as a named destination or as the flag of the six instructions of 10_state.md R21, whose flag is 0 or 1 (that no
other instruction writes it is the spec's own decision D10, assumption log 14). -/
def Obligations.OnlySixInstructionsWriteTheFlag : Prop :=
  ∀ (i : Instr) (s t : State), exec i s = .next t →
    (¬ writesFlag i → ¬ destination i vF → t.V vF = s.V vF) ∧
    (writesFlag i → s.run = .running → t.live → t.V vF = 0 ∨ t.V vF = 1) ∧
    ∀ r, r ≠ vF → ¬ destination i r → t.V r = s.V r

/-- Which instructions write which other part of the state (10_state.md R22, R28 to R35): no instruction writes the keypad or the
host's actions. -/
def Obligations.EachPartHasItsWriters : Prop :=
  ∀ (i : Instr) (s t : State), exec i s = .next t →
    ((∃ a, t.byteAt a ≠ s.byteAt a) → ∃ x, i = .ldB x ∨ i = .storeRegs x) ∧
    ((∃ j, t.slot j ≠ s.slot j) → ∃ nnn, i = .call nnn) ∧
    (t.sp ≠ s.sp → i = .ret ∨ ∃ nnn, i = .call nnn) ∧
    ((∃ r c, t.pixel r c ≠ s.pixel r c) → i = .cls ∨ ∃ x y n, i = .drw x y n) ∧
    (t.i ≠ s.i → (∃ nnn, i = .ldI nnn) ∨ (∃ x, i = .addI x) ∨ ∃ x, i = .ldF x) ∧
    (t.dt ≠ s.dt → ∃ x, i = .ldDt x) ∧ (t.st ≠ s.st → ∃ x, i = .ldSt x) ∧
    (t.draws ≠ s.draws → ∃ x nn, i = .rnd x nn) ∧
    t.key = s.key ∧ t.pending = s.pending

/-- ISOLATION: an instruction that is no key test behaves the same whatever keys are pressed (10_state.md R22, R35): two states that
differ in the keypad alone give outcomes that differ in it alone. Both runs draw the same random bytes (assumption log 5). -/
def Obligations.KeysMatterToKeyTestsOnly : Prop :=
  ∀ (i : Instr) (s : State) (key' : Vector Bool 16), (∀ x, i ≠ .skp x ∧ i ≠ .sknp x) →
    exec i { s with key := key' } = mapNext (fun t => { t with key := key' }) (exec i s)

/-- ISOLATION: no instruction reads ST (10_state.md R32). Both runs draw the same random bytes (assumption log 5). -/
def Obligations.NoInstructionReadsTheSoundTimer : Prop :=
  ∀ (i : Instr) (s : State) (b : Byte),
    ((∀ x, i ≠ .ldSt x) → exec i { s with st := b } = mapNext (fun t => { t with st := b }) (exec i s)) ∧
    ∀ x, i = .ldSt x → exec i { s with st := b } = exec i s

/-- ISOLATION: popped stack entries are never read (10_state.md R30, the spec's own decision D32, assumption log 15): two states that
differ only in the entries at SP and above give outcomes that differ only so. Both runs draw the same random bytes (assumption
log 5). -/
def Obligations.StaleStackEntriesAreNeverRead : Prop :=
  ∀ (i : Instr) (s t : State), sameButStale s t → outcomesSameButStale (exec i s) (exec i t)

/-! ## Control flow -/

/-- SYS halts with SysUnsupported and changes nothing else (41_flow.md R111, the spec's own decision D16, assumption log 17). -/
def Obligations.SysHalts : Prop :=
  ∀ (nnn : Addr12) (s : State), exec (.sys nnn) s = .next (haltedIn (.sys nnn) s .sysUnsupported none)

/-- JP nnn and JP V0, nnn write the pc and nothing else; the register added is V0 (41_flow.md R113, R119; the spec's general knowledge
K11 and its own decision D9, assumption log 15). -/
def Obligations.JumpsWriteOnlyThePc : Prop :=
  ∀ (nnn : Addr12) (s : State),
    (∃ t, exec (.jp nnn) s = .next t ∧ t.pc.toNat = nnn.toNat ∧ Untouched s t fun _ => False) ∧
    ∃ t, exec (.jpV0 nnn) s = .next t ∧ t.pc.toNat = nnn.toNat + (s.V 0).toNat ∧ Untouched s t fun _ => False

/-- CALL pushes the address after it and jumps; with 16 entries it halts with StackOverflow (41_flow.md R114, the spec's own decision D4,
assumption log 17). -/
def Obligations.CallPushesTheReturnAddress : Prop :=
  ∀ (nnn : Addr12) (s : State),
    (s.sp.toNat < 16 → ∃ t, exec (.call nnn) s = .next t ∧ t.pc.toNat = nnn.toNat ∧
      t.sp.toNat = s.sp.toNat + 1 ∧ t.slot (BitVec.ofNat 4 s.sp.toNat) = s.pc + 2 ∧
      Untouched s t fun p => p = .stackPointer ∨ p = .slot (BitVec.ofNat 4 s.sp.toNat)) ∧
    (s.sp.toNat = 16 → exec (.call nnn) s = .next (haltedIn (.call nnn) s .stackOverflow none))

/-- RET (41_flow.md R112): on an empty stack it halts with StackUnderflow and changes nothing else; otherwise it pops the top entry into
the pc and leaves the entry in its slot. -/
def Obligations.ReturnPopsTheStack : Prop :=
  decodeWord 0x00EE#16 = some .ret ∧
  ∀ s : State,
    (s.sp.toNat = 0 → exec .ret s = .next (haltedIn .ret s .stackUnderflow none)) ∧
    (0 < s.sp.toNat → s.sp.toNat ≤ 16 → ∃ t, exec .ret s = .next t ∧ t.sp.toNat = s.sp.toNat - 1 ∧
      t.pc = s.slot (BitVec.ofNat 4 (s.sp.toNat - 1)) ∧ Untouched s t fun p => p = .stackPointer)

/-- A call and a return come back behind the call and leave everything but the pc and one stale entry as it was (41_flow.md R112,
R114). -/
def Obligations.CallThenReturnComesBack : Prop :=
  ∀ (nnn : Addr12) (s : State), s.sp.toNat < 16 →
    ∃ t u, exec (.call nnn) s = .next t ∧ exec .ret t = .next u ∧ u.pc = s.pc + 2 ∧
      Untouched s u fun p => p = .slot (BitVec.ofNat 4 s.sp.toNat)

/-- THE MODEL'S CHOICE (assumption log 3): with SP above 16, which 10_state.md R29 says never occurs, CALL and RET stop by name. -/
def Obligations.CallAndReturnStopAboveSixteen : Prop :=
  ∀ (nnn : Addr12) (s : State), 16 < s.sp.toNat →
    exec (.call nnn) s = .fault (.stackPointerOutOfRange s.sp) ∧ exec .ret s = .fault (.stackPointerOutOfRange s.sp)

/-- SE Vx, nn and SNE Vx, nn skip one instruction or none, and write only the pc (41_flow.md R110, R115, R116; the forms are the spec's
general knowledge K7 and K11, assumption log 12). -/
def Obligations.SkipOnAnImmediate : Prop :=
  ∀ (x : Nibble) (nn : Byte) (s : State),
    (∃ t, exec (.seImm x nn) s = .next t ∧ t.pc = (if s.V x = nn then s.pc + 4 else s.pc + 2) ∧
      Untouched s t fun _ => False) ∧
    ∃ t, exec (.sneImm x nn) s = .next t ∧ t.pc = (if s.V x ≠ nn then s.pc + 4 else s.pc + 2) ∧
      Untouched s t fun _ => False

/-- SE Vx, Vy and SNE Vx, Vy likewise (41_flow.md R117, R118; general knowledge K11, assumption log 12). -/
def Obligations.SkipOnARegister : Prop :=
  ∀ (x y : Nibble) (s : State),
    (∃ t, exec (.seReg x y) s = .next t ∧ t.pc = (if s.V x = s.V y then s.pc + 4 else s.pc + 2) ∧
      Untouched s t fun _ => False) ∧
    ∃ t, exec (.sneReg x y) s = .next t ∧ t.pc = (if s.V x ≠ s.V y then s.pc + 4 else s.pc + 2) ∧
      Untouched s t fun _ => False

/-! ## Registers, arithmetic, logic -/

/-- LD Vx, nn and LD Vx, Vy (42_alu.md R131, R133; general knowledge K11, assumption log 12). -/
def Obligations.LoadsCopyIntoOneRegister : Prop :=
  ∀ (x y : Nibble) (nn : Byte) (s : State),
    (∃ t, exec (.ldImm x nn) s = .next t ∧ t.pc = s.pc + 2 ∧ t.V x = nn ∧ Untouched s t fun p => p = .reg x) ∧
    ∃ t, exec (.ldReg x y) s = .next t ∧ t.pc = s.pc + 2 ∧ t.V x = s.V y ∧ Untouched s t fun p => p = .reg x

/-- ADD Vx, nn wraps and leaves VF alone unless x is 0xF (42_alu.md R132, the spec's own decision D10, assumption log 14). -/
def Obligations.AddImmediateSetsNoFlag : Prop :=
  ∀ (x : Nibble) (nn : Byte) (s : State),
    ∃ t, exec (.addImm x nn) s = .next t ∧ t.pc = s.pc + 2 ∧ (t.V x).toNat = ((s.V x).toNat + nn.toNat) % 256 ∧
      Untouched s t fun p => p = .reg x

/-- OR, AND and XOR bit by bit, with no flag (42_alu.md R134 to R136, the spec's own decision D10, assumption log 14). -/
def Obligations.LogicSetsNoFlag : Prop :=
  ∀ (x y : Nibble) (s : State),
    (∃ t, exec (.or x y) s = .next t ∧ t.pc = s.pc + 2 ∧
      (∀ b, (t.V x).getLsbD b = ((s.V x).getLsbD b || (s.V y).getLsbD b)) ∧ Untouched s t fun p => p = .reg x) ∧
    (∃ t, exec (.and x y) s = .next t ∧ t.pc = s.pc + 2 ∧
      (∀ b, (t.V x).getLsbD b = ((s.V x).getLsbD b && (s.V y).getLsbD b)) ∧ Untouched s t fun p => p = .reg x) ∧
    ∃ t, exec (.xor x y) s = .next t ∧ t.pc = s.pc + 2 ∧
      (∀ b, (t.V x).getLsbD b = ((s.V x).getLsbD b != (s.V y).getLsbD b)) ∧ Untouched s t fun p => p = .reg x

/-- ADD Vx, Vy (42_alu.md R137): the sum modulo 256, VF the carry, VF winning when x is 0xF, the operands the old values. -/
def Obligations.AddSetsTheCarry : Prop :=
  ∀ x y : Nibble, decodeWord (wordXYN 0x8#4 x y 0x4#4) = some (.add x y) ∧
    ∀ s : State, ∃ t, exec (.add x y) s = .next t ∧ t.pc = s.pc + 2 ∧
      (t.V vF).toNat = (if (s.V x).toNat + (s.V y).toNat > 255 then 1 else 0) ∧
      (x ≠ vF → (t.V x).toNat = ((s.V x).toNat + (s.V y).toNat) % 256) ∧
      Untouched s t fun p => p = .reg x ∨ p = .reg vF

/-- SUB Vx, Vy (42_alu.md R138): the difference modulo 256, VF 1 when there is no borrow. -/
def Obligations.SubSetsNoBorrow : Prop :=
  ∀ x y : Nibble, decodeWord (wordXYN 0x8#4 x y 0x5#4) = some (.sub x y) ∧
    ∀ s : State, ∃ t, exec (.sub x y) s = .next t ∧ t.pc = s.pc + 2 ∧
      (t.V vF).toNat = (if (s.V x).toNat ≥ (s.V y).toNat then 1 else 0) ∧
      (x ≠ vF → ((t.V x).toNat : Int) = ((s.V x).toNat - (s.V y).toNat : Int) % 256) ∧
      Untouched s t fun p => p = .reg x ∨ p = .reg vF

/-- SUBN Vx, Vy (42_alu.md R140): the reverse difference, VF 1 when `V[y] ≥ V[x]` (derived by the spec from the no-borrow convention and
the operand order K9, assumption log 14). -/
def Obligations.SubnSetsNoBorrow : Prop :=
  ∀ (x y : Nibble) (s : State), ∃ t, exec (.subn x y) s = .next t ∧ t.pc = s.pc + 2 ∧
    (t.V vF).toNat = (if (s.V y).toNat ≥ (s.V x).toNat then 1 else 0) ∧
    (x ≠ vF → ((t.V x).toNat : Int) = ((s.V y).toNat - (s.V x).toNat : Int) % 256) ∧
    Untouched s t fun p => p = .reg x ∨ p = .reg vF

/-- SHR shifts `V[x]` in place and VF takes its old bit 0; y is not used (42_alu.md R139, the spec's own decision D7, assumption log
14). -/
def Obligations.ShiftRightTakesBitZero : Prop :=
  ∀ (x y : Nibble) (s : State), ∃ t, exec (.shr x y) s = .next t ∧ t.pc = s.pc + 2 ∧
    (t.V vF).toNat = (s.V x).toNat % 2 ∧ (x ≠ vF → (t.V x).toNat = (s.V x).toNat / 2) ∧
    Untouched s t fun p => p = .reg x ∨ p = .reg vF

/-- SHL shifts `V[x]` in place and VF takes its old bit 7; y is not used (42_alu.md R141, the spec's own decision D7, assumption log
14). -/
def Obligations.ShiftLeftTakesBitSeven : Prop :=
  ∀ (x y : Nibble) (s : State), ∃ t, exec (.shl x y) s = .next t ∧ t.pc = s.pc + 2 ∧
    (t.V vF).toNat = (s.V x).toNat / 128 ∧ (x ≠ vF → (t.V x).toNat = 2 * (s.V x).toNat % 256) ∧
    Untouched s t fun p => p = .reg x ∨ p = .reg vF

/-- RND writes a byte with no bit outside its mask, the free byte of this draw under the mask, and uses the draw up (42_alu.md R142, the
spec's own decision D24; the free byte is assumption log 5, and the statement holds for every value of it). -/
def Obligations.RandomByteUnderTheMask : Prop :=
  ∀ (x : Nibble) (nn : Byte) (s : State), ∃ t, exec (.rnd x nn) s = .next t ∧ t.pc = s.pc + 2 ∧
    t.V x = Config.freeByte s.draws &&& nn ∧ (∀ b, nn.getLsbD b = false → (t.V x).getLsbD b = false) ∧
    t.draws = s.draws + 1 ∧ Untouched s t fun p => p = .reg x ∨ p = .draws

/-! ## Index register and memory -/

/-- LD I, nnn and ADD I, Vx; the sum is modulo 65536 and sets no flag (43_index_memory.md R160, R161; general knowledge K11 and the spec's
own decision D6, assumption log 15). -/
def Obligations.IndexLoadAndAdd : Prop :=
  ∀ (x : Nibble) (nnn : Addr12) (s : State),
    (∃ t, exec (.ldI nnn) s = .next t ∧ t.pc = s.pc + 2 ∧ t.i.toNat = nnn.toNat ∧ Untouched s t fun p => p = .index) ∧
    ∃ t, exec (.addI x) s = .next t ∧ t.pc = s.pc + 2 ∧ t.i.toNat = (s.i.toNat + (s.V x).toNat) % 65536 ∧
      Untouched s t fun p => p = .index

/-- LD F, Vx points I at the glyph of a digit and halts with OperandRangeError on any other value (43_index_memory.md R162, the spec's own
decision D14, assumption logs 13, 17). -/
def Obligations.FontAddressOfADigit : Prop :=
  ∀ (x : Nibble) (s : State),
    ((s.V x).toNat ≤ 15 → ∃ t, exec (.ldF x) s = .next t ∧ t.pc = s.pc + 2 ∧ t.i.toNat = 5 * (s.V x).toNat ∧
      Untouched s t fun p => p = .index) ∧
    (15 < (s.V x).toNat → exec (.ldF x) s = .next (haltedIn (.ldF x) s .operandRangeError (some (s.V x).toNat)))

/-- LD B, Vx stores hundreds, tens and ones at I, I + 1, I + 2 and nothing else (43_index_memory.md R163; the digit order is general
knowledge K10, assumption log 15). Canonical memory is the invariant of StepKeepsTheInvariant. -/
def Obligations.BcdStoresThreeDigits : Prop :=
  ∀ (x : Nibble) (s : State), s.i.toNat + 2 < 4096 → ∃ t, exec (.ldB x) s = .next t ∧ t.pc = s.pc + 2 ∧
    (Memory.wf s.mem = true → (t.byteAt s.i.toNat).toNat = (s.V x).toNat / 100 ∧
      (t.byteAt (s.i.toNat + 1)).toNat = (s.V x).toNat / 10 % 10 ∧ (t.byteAt (s.i.toNat + 2)).toNat = (s.V x).toNat % 10) ∧
    Untouched s t fun p => ∃ k, k < 3 ∧ p = .byte (s.i.toNat + k)

/-- LD [I], Vx stores V0 to Vx at I to I + x and nothing else; I is unchanged (43_index_memory.md R164, the spec's own decision D8, assumption
log 15). -/
def Obligations.StoreRegistersWritesTheRange : Prop :=
  ∀ (x : Nibble) (s : State), s.i.toNat + x.toNat < 4096 → ∃ t, exec (.storeRegs x) s = .next t ∧ t.pc = s.pc + 2 ∧
    (Memory.wf s.mem = true → ∀ k : Nibble, k.toNat ≤ x.toNat → t.byteAt (s.i.toNat + k.toNat) = s.V k) ∧
    Untouched s t fun p => ∃ k, k ≤ x.toNat ∧ p = .byte (s.i.toNat + k)

/-- LD Vx, [I] loads V0 to Vx from I to I + x and changes nothing else; I is unchanged (43_index_memory.md R165, the spec's own decision D8,
assumption log 15). -/
def Obligations.LoadRegistersReadsTheRange : Prop :=
  ∀ (x : Nibble) (s : State), s.i.toNat + x.toNat < 4096 → ∃ t, exec (.loadRegs x) s = .next t ∧ t.pc = s.pc + 2 ∧
    (∀ k : Nibble, k.toNat ≤ x.toNat → t.V k = s.byteAt (s.i.toNat + k.toNat)) ∧
    Untouched s t fun p => ∃ k : Nibble, k.toNat ≤ x.toNat ∧ p = .reg k

/-- An access through I that leaves memory halts with the lowest address outside it, and nothing is written (43_index_memory.md R159, R163 to
R165, 44_display.md R182, 20_memory.md R57; the fatal policy is the spec's own decision D3, assumption log 17). -/
def Obligations.AccessOutsideMemoryHalts : Prop :=
  ∀ (x y n : Nibble) (s : State),
    (4096 ≤ s.i.toNat + 2 → exec (.ldB x) s = .next (haltedIn (.ldB x) s .memoryFault (some (max s.i.toNat 4096)))) ∧
    (4096 ≤ s.i.toNat + x.toNat →
      exec (.storeRegs x) s = .next (haltedIn (.storeRegs x) s .memoryFault (some (max s.i.toNat 4096))) ∧
      exec (.loadRegs x) s = .next (haltedIn (.loadRegs x) s .memoryFault (some (max s.i.toNat 4096)))) ∧
    (1 ≤ n.toNat → 4096 ≤ s.i.toNat + n.toNat - 1 →
      exec (.drw x y n) s = .next (haltedIn (.drw x y n) s .memoryFault (some (max s.i.toNat 4096))))

/-- Registers stored and loaded back are the registers stored, whatever happened to them in between: only memory, the pc and V0 to Vx
matter (43_index_memory.md R164, R165; D8, assumption log 15). -/
def Obligations.StoreThenLoadRestoresRegisters : Prop :=
  ∀ (x : Nibble) (s : State) (v' : Vector Byte 16), Memory.wf s.mem = true → s.i.toNat + x.toNat < 4096 →
    ∃ t u, exec (.storeRegs x) s = .next t ∧ exec (.loadRegs x) { t with v := v' } = .next u ∧
      ∀ k : Nibble, k.toNat ≤ x.toNat → u.V k = s.V k

/-- A store is seen by the very next fetch: registers stored over the following instruction are what is executed next (20_memory.md R66,
70_reset_and_hazards.md R266; the spec's own decision D34, assumption log 15). -/
def Obligations.StoredBytesAreFetchedNext : Prop :=
  ∀ (x : Nibble) (s : State), Memory.wf s.mem = true → 1 ≤ x.toNat → s.i = s.pc + 2 → s.i.toNat + x.toNat < 4096 →
    ∃ t, exec (.storeRegs x) s = .next t ∧ t.fetch = .ok (s.V 0x0#4 ++ s.V 0x1#4)

/-! ## Display -/

/-- CLS turns every pixel off and changes nothing else (44_display.md R181; that VF is untouched is the spec's own decision D10, assumption
log 14). -/
def Obligations.ClearScreenTurnsEveryPixelOff : Prop :=
  ∀ s : State, ∃ t, exec .cls s = .next t ∧ t.pc = s.pc + 2 ∧ (∀ r c, t.pixel r c = false) ∧
    Untouched s t fun p => ∃ r c, p = .pixel r c

/-- DRW toggles exactly the pixels its sprite covers, rows wrapping and columns clipped, and VF is 1 exactly when a covered pixel was on
(44_display.md R180, R182; the spec's own decisions D11 to D13, assumption log 16). With n = 0 nothing is read. -/
def Obligations.DrawTogglesTheCoveredPixels : Prop :=
  ∀ (x y n : Nibble) (s : State), (n.toNat = 0 ∨ s.i.toNat + n.toNat ≤ 4096) →
    ∃ t, exec (.drw x y n) s = .next t ∧ t.pc = s.pc + 2 ∧
      (∀ r c, drawCovers s x y n r c → t.pixel r c = !s.pixel r c) ∧
      ((∃ r c, drawCovers s x y n r c ∧ s.pixel r c = true) → t.V vF = 1) ∧
      (¬ (∃ r c, drawCovers s x y n r c ∧ s.pixel r c = true) → t.V vF = 0) ∧
      Untouched s t fun p => p = .reg vF ∨ ∃ r c, drawCovers s x y n r c ∧ p = .pixel r c

/-- A sprite drawn twice at one place leaves the framebuffer as it was, and the second draw collides exactly when the first one lit a pixel
(the source's test quoted in 44_display.md R182; D11 to D13, assumption log 16). With x or y being 0xF the first draw's flag is a
coordinate of the second, so the place is not the same; DrawTogglesTheCoveredPixels covers each of those draws. -/
def Obligations.DrawTwiceRestoresTheScreen : Prop :=
  ∀ (x y n : Nibble) (s : State), x ≠ vF → y ≠ vF → (n.toNat = 0 ∨ s.i.toNat + n.toNat ≤ 4096) →
    ∃ t u, exec (.drw x y n) s = .next t ∧ exec (.drw x y n) t = .next u ∧ u.fb = s.fb ∧
      (u.V vF = 1 ↔ ∃ r c, s.pixel r c = false ∧ t.pixel r c = true)

/-! ## Keypad and timers -/

/-- SKP and SKNP test the level of a key and write only the pc; a value above 0xF halts with OperandRangeError (45_timers_keys.md R200,
R201; the range check is the spec's own decision D15, assumption log 17). -/
def Obligations.KeyTestsSkipOnTheLevel : Prop :=
  ∀ (x : Nibble) (s : State),
    (∀ k : Nibble, (s.V x).toNat = k.toNat →
      (∃ t, exec (.skp x) s = .next t ∧ t.pc = (if s.isPressed k then s.pc + 4 else s.pc + 2) ∧
        Untouched s t fun _ => False) ∧
      ∃ t, exec (.sknp x) s = .next t ∧ t.pc = (if s.isPressed k then s.pc + 2 else s.pc + 4) ∧
        Untouched s t fun _ => False) ∧
    (15 < (s.V x).toNat →
      exec (.skp x) s = .next (haltedIn (.skp x) s .operandRangeError (some (s.V x).toNat)) ∧
      exec (.sknp x) s = .next (haltedIn (.sknp x) s .operandRangeError (some (s.V x).toNat)))

/-- LD Vx, DT; LD DT, Vx; LD ST, Vx (45_timers_keys.md R202, R204, R205; general knowledge K11, assumption log 12). -/
def Obligations.TimerRegistersMoveBytes : Prop :=
  ∀ (x : Nibble) (s : State),
    (∃ t, exec (.ldVxDt x) s = .next t ∧ t.pc = s.pc + 2 ∧ t.V x = s.dt ∧ Untouched s t fun p => p = .reg x) ∧
    (∃ t, exec (.ldDt x) s = .next t ∧ t.pc = s.pc + 2 ∧ t.dt = s.V x ∧ Untouched s t fun p => p = .delayTimer) ∧
    ∃ t, exec (.ldSt x) s = .next t ∧ t.pc = s.pc + 2 ∧ t.st = s.V x ∧ Untouched s t fun p => p = .soundTimer

/-- LD Vx, K holds the pc on itself and blocks; no register and no key changes, and a key held down already does not end the wait
(45_timers_keys.md R203). -/
def Obligations.KeyWaitBlocksOnItself : Prop :=
  ∀ x : Nibble, decodeWord (wordXNN 0xF#4 x 0x0A#8) = some (.ldVxK x) ∧
    ∀ s : State, ∃ t, exec (.ldVxK x) s = .next t ∧ t.pc = s.pc ∧ t.run = .blockedOnKey x ∧
      (Untouched s t fun p => p = .runState) ∧
      (∀ k : Nibble, s.isPressed k = true → (t.setKey k true).run = .blockedOnKey x) ∧
      (∀ k : Nibble, s.isPressed k = false → (t.setKey k true).run = .running) ∧
      t.tick.run = .blockedOnKey x ∧ t.tick.dt.toNat = s.dt.toNat - 1 ∧ t.tick.st.toNat = s.st.toNat - 1

/-- One tick (60_exceptions.md R229): each timer goes down by one unless it is 0, in every run state but Halted, and nothing else
changes. -/
def Obligations.TickCountsTheTimersDown : Prop :=
  ∀ s : State, ∃ t, perform .tick s = .next t ∧ t.pc = s.pc ∧
    (s.live → t.dt.toNat = s.dt.toNat - 1 ∧ t.st.toNat = s.st.toNat - 1) ∧
    (¬ s.live → t.dt = s.dt ∧ t.st = s.st) ∧
    Untouched s t fun p => p = .delayTimer ∨ p = .soundTimer

/-- Any number of ticks (60_exceptions.md R229, R230): a timer reaches 0 after as many ticks as it held, and stays there. -/
def Obligations.TicksStopAtZero : Prop :=
  ∀ (n : Nat) (s : State), s.live → ∃ t, performAll (List.replicate n .tick) s = .next t ∧
    t.dt.toNat = s.dt.toNat - n ∧ t.st.toNat = s.st.toNat - n ∧ t.run = s.run ∧ t.pc = s.pc ∧
    Untouched s t fun p => p = .delayTimer ∨ p = .soundTimer

/-- A key change (60_exceptions.md R236) and the completion of the key wait by a press transition, in one step (45_timers_keys.md R206); an
index above 15 is no action (60_exceptions.md R237). The spec's own decisions D20, D22 and D31 (assumption logs 11, 18). -/
def Obligations.KeyChangesAndTheKeyWait : Prop :=
  ∀ (s : State) (k : Nat) (p : Bool),
    (k < 16 → s.live →
      (∀ x, s.run = .blockedOnKey x → p = true → s.isPressed (BitVec.ofNat 4 k) = false →
        ∃ t, perform (.setKey k p) s = .next t ∧ t.run = .running ∧ t.pc = s.pc + 2 ∧ (t.V x).toNat = k ∧
          t.isPressed (BitVec.ofNat 4 k) = true ∧
          Untouched s t fun q => q = .runState ∨ q = .reg x ∨ q = .key (BitVec.ofNat 4 k)) ∧
      ((s.run = .running ∨ p = false ∨ s.isPressed (BitVec.ofNat 4 k) = true) →
        ∃ t, perform (.setKey k p) s = .next t ∧ t.pc = s.pc ∧ t.isPressed (BitVec.ofNat 4 k) = p ∧
          Untouched s t fun q => q = .key (BitVec.ofNat 4 k))) ∧
    (16 ≤ k → perform (.setKey k p) s = .refused (.keyIndexOutOfRange k))

/-! ## Load, restart, and the host's order -/

/-- Every ROM of at most 3584 bytes is loaded byte for byte at 0x200 (70_reset_and_hazards.md R262). -/
def Obligations.LoadPlacesTheRom : Prop :=
  ∀ rom : List Byte, rom.length ≤ 3584 → ∃ t, load rom = .next t ∧
    ∀ (i : Nat) (h : i < rom.length), t.byteAt (0x200 + i) = rom[i]

/-- The load check and the boot state; a restart discards the state and loads again (70_reset_and_hazards.md R260, R261, R263). What a block
without a ROM holds around it is the spec's own decisions D14, D18, D19 and D28; that an oversized ROM ends the run is
assumption log 2. THE MODEL'S CHOICE: that a restart keeps its own fields draws and pending (assumption logs 4, 5); R263 says nothing of
them, since they are no state of the block. -/
def Obligations.LoadAndRestartBootTheBlock : Prop :=
  ∀ (rom : List Byte) (s : State),
    (rom.length ≤ 3584 → ∃ t, load rom = .next t ∧ t.pc = 0x200#16 ∧ Memory.wf t.mem = true ∧
      (∀ a, a < 0x200 ∨ 0x200 + rom.length ≤ a → t.byteAt a = State.reset.byteAt a) ∧
      (Untouched State.reset t fun p => ∃ a, p = .byte a) ∧
      perform (.restart rom) s = .next { t with draws := s.draws, pending := s.pending }) ∧
    (3584 < rom.length → load rom = .fault (.loadError rom.length) ∧
      perform (.restart rom) s = .fault (.loadError rom.length))

/-- THE HOST'S ORDER (60_exceptions.md R238): running the machine over a list of host actions performs them one after another, each as one
atomic step, in the order listed (the list in State is the model's own, assumption log 4). -/
def Obligations.StepsFollowTheHostsOrder : Prop :=
  ∀ (acts : List HostAction) (s : State),
    Host.Core.run core acts.length { s with pending := acts } = performAll acts { s with pending := [] }

/-- LIVENESS under the host's duties (60_exceptions.md R240, the spec's own decision D21, assumption log 19): while a block waits for a key
that nobody presses, the delay timer runs out. -/
def Obligations.DelayRunsOutDuringTheKeyWait : Prop :=
  ∀ (schedule : Nat → HostAction) (s : State) (x : Nibble), hostDuties schedule → s.run = .blockedOnKey x →
    (∀ n k, schedule n ≠ .setKey k true) → (∀ n rom, schedule n ≠ .restart rom) →
    ∃ n t, performAll (firstActions schedule n) s = .next t ∧ t.dt = 0 ∧ t.run = .blockedOnKey x

/-- What the host reads, and that reading changes nothing (60_exceptions.md R221, R241, R242). -/
def Obligations.HostReadsChangeNothing : Prop :=
  ∀ s : State,
    perform .readFramebuffer s = .next s ∧ perform .readSound s = .next s ∧ perform .readError s = .next s ∧
    (∀ r c, Framebuffer.pixel s.framebuffer r c = s.pixel r c) ∧ (s.soundActive = true ↔ s.st.toNat ≠ 0) ∧
    ∀ e, s.errorRecord = some e ↔ s.run = .halted e
end

