-- ==== Sys2Proof/Laws/Decode.lean ====
section
/-! SUPPORT. The opcode fields of each instruction format (30_encoding.md R72), the byte order, and what the fields of a
word say about the word. -/

namespace Sys2Proof

/-- Bit `k` of a field of length `len` at `lo` is bit `lo + k` of the word. -/
theorem fieldBit_eq (w : Word) {k len lo i : Nat} (h : k < len) (e : lo + k = i) :
    (decide (k < len) && w.getLsbD (lo + k)) = w.getLsbD i := by simp [h, e]

section formats
variable (op x y f : Nibble) (nn : Byte) (nnn : Addr12)

theorem getLsbD_wordNNN (i : Nat) :
    (wordNNN op nnn).getLsbD i = if i < 12 then nnn.getLsbD i else op.getLsbD (i - 12) :=
  BitVec.getLsbD_append

theorem getLsbD_wordXNN (i : Nat) :
    (wordXNN op x nn).getLsbD i
      = if i < 8 then nn.getLsbD i else if i - 8 < 4 then x.getLsbD (i - 8) else op.getLsbD (i - 8 - 4) :=
  (BitVec.getLsbD_append (x := (op ++ x : Byte)) (y := nn) (i := i)).trans
    (congrArg (fun b => if i < 8 then nn.getLsbD i else b) BitVec.getLsbD_append)

theorem getLsbD_wordXYN (i : Nat) :
    (wordXYN op x y f).getLsbD i
      = if i < 4 then f.getLsbD i else if i - 4 < 4 then y.getLsbD (i - 4)
        else if i - 4 - 4 < 4 then x.getLsbD (i - 4 - 4) else op.getLsbD (i - 4 - 4 - 4) :=
  (BitVec.getLsbD_append (x := (op ++ x ++ y : Addr12)) (y := f) (i := i)).trans
    (congrArg (fun b => if i < 4 then f.getLsbD i else b)
      ((BitVec.getLsbD_append (x := (op ++ x : Byte)) (y := y) (i := i - 4)).trans
        (congrArg (fun b => if i - 4 < 4 then y.getLsbD (i - 4) else b) BitVec.getLsbD_append)))

@[simp] theorem opField_wordNNN : opField (wordNNN op nnn) = op := by
  apply BitVec.eq_of_getLsbD_eq; intro i hi
  unfold opField
  simp only [BitVec.getLsbD_extractLsb', getLsbD_wordNNN, hi, decide_true, Bool.true_and]
  split_ifs <;> first | omega | (congr 1; omega)

@[simp] theorem nnnField_wordNNN : nnnField (wordNNN op nnn) = nnn := by
  apply BitVec.eq_of_getLsbD_eq; intro i hi
  unfold nnnField
  simp only [BitVec.getLsbD_extractLsb', getLsbD_wordNNN, hi, decide_true, Bool.true_and]
  split_ifs <;> first | omega | (congr 1; omega)

@[simp] theorem opField_wordXNN : opField (wordXNN op x nn) = op := by
  apply BitVec.eq_of_getLsbD_eq; intro i hi
  unfold opField
  simp only [BitVec.getLsbD_extractLsb', getLsbD_wordXNN, hi, decide_true, Bool.true_and]
  split_ifs <;> first | omega | (congr 1; omega)

@[simp] theorem xField_wordXNN : xField (wordXNN op x nn) = x := by
  apply BitVec.eq_of_getLsbD_eq; intro i hi
  unfold xField
  simp only [BitVec.getLsbD_extractLsb', getLsbD_wordXNN, hi, decide_true, Bool.true_and]
  split_ifs <;> first | omega | (congr 1; omega)

@[simp] theorem nnField_wordXNN : nnField (wordXNN op x nn) = nn := by
  apply BitVec.eq_of_getLsbD_eq; intro i hi
  unfold nnField
  simp only [BitVec.getLsbD_extractLsb', getLsbD_wordXNN, hi, decide_true, Bool.true_and]
  split_ifs <;> first | omega | (congr 1; omega)

@[simp] theorem opField_wordXYN : opField (wordXYN op x y f) = op := by
  apply BitVec.eq_of_getLsbD_eq; intro i hi
  unfold opField
  simp only [BitVec.getLsbD_extractLsb', getLsbD_wordXYN, hi, decide_true, Bool.true_and]
  split_ifs <;> first | omega | (congr 1; omega)

@[simp] theorem xField_wordXYN : xField (wordXYN op x y f) = x := by
  apply BitVec.eq_of_getLsbD_eq; intro i hi
  unfold xField
  simp only [BitVec.getLsbD_extractLsb', getLsbD_wordXYN, hi, decide_true, Bool.true_and]
  split_ifs <;> first | omega | (congr 1; omega)

@[simp] theorem yField_wordXYN : yField (wordXYN op x y f) = y := by
  apply BitVec.eq_of_getLsbD_eq; intro i hi
  unfold yField
  simp only [BitVec.getLsbD_extractLsb', getLsbD_wordXYN, hi, decide_true, Bool.true_and]
  split_ifs <;> first | omega | (congr 1; omega)

@[simp] theorem nField_wordXYN : nField (wordXYN op x y f) = f := by
  apply BitVec.eq_of_getLsbD_eq; intro i hi
  unfold nField
  simp only [BitVec.getLsbD_extractLsb', getLsbD_wordXYN, hi, decide_true, Bool.true_and]
  split_ifs <;> first | omega | (congr 1; omega)

end formats

/-- A word is its high nibble and its low 12 bits. -/
theorem wordNNN_fields (w : Word) : wordNNN (opField w) (nnnField w) = w := by
  apply BitVec.eq_of_getLsbD_eq; intro i hi
  unfold opField nnnField
  simp only [BitVec.getLsbD_extractLsb', getLsbD_wordNNN]
  split_ifs <;> exact fieldBit_eq w (by omega) (by omega)

/-- A word is its high nibble, its field x and its low byte. -/
theorem wordXNN_fields (w : Word) : wordXNN (opField w) (xField w) (nnField w) = w := by
  apply BitVec.eq_of_getLsbD_eq; intro i hi
  unfold opField xField nnField
  simp only [BitVec.getLsbD_extractLsb', getLsbD_wordXNN]
  split_ifs <;> exact fieldBit_eq w (by omega) (by omega)

/-- A word is its four nibbles. -/
theorem wordXYN_fields (w : Word) : wordXYN (opField w) (xField w) (yField w) (nField w) = w := by
  apply BitVec.eq_of_getLsbD_eq; intro i hi
  unfold opField xField yField nField
  simp only [BitVec.getLsbD_extractLsb', getLsbD_wordXYN]
  split_ifs <;> exact fieldBit_eq w (by omega) (by omega)

theorem getLsbD_wordOfBytes (hi lo : Byte) (i : Nat) :
    (wordOfBytes hi lo).getLsbD i = if i < 8 then lo.getLsbD i else hi.getLsbD (i - 8) :=
  BitVec.getLsbD_append

/-- The bytes of a word, high byte first, are the word again. -/
@[simp] theorem wordOfBytes_bytes (w : Word) : wordOfBytes (highByte w) (lowByte w) = w := by
  apply BitVec.eq_of_getLsbD_eq; intro i hi
  unfold highByte lowByte
  simp only [BitVec.getLsbD_extractLsb', getLsbD_wordOfBytes]
  split_ifs <;> exact fieldBit_eq w (by omega) (by omega)

/-- The high byte of a word made of two bytes. -/
@[simp] theorem highByte_wordOfBytes (hi lo : Byte) : highByte (wordOfBytes hi lo) = hi := by
  apply BitVec.eq_of_getLsbD_eq; intro i h
  unfold highByte
  simp only [BitVec.getLsbD_extractLsb', getLsbD_wordOfBytes, h, decide_true, Bool.true_and]
  split_ifs <;> first | omega | (congr 1; omega)

/-- The low byte of a word made of two bytes. -/
@[simp] theorem lowByte_wordOfBytes (hi lo : Byte) : lowByte (wordOfBytes hi lo) = lo := by
  apply BitVec.eq_of_getLsbD_eq; intro i h
  unfold lowByte
  simp only [BitVec.getLsbD_extractLsb', getLsbD_wordOfBytes, h, decide_true, Bool.true_and]
  split_ifs <;> first | omega | (congr 1; omega)

/-- A nibble is one of sixteen values. -/
theorem nibble_cases (k : Nibble) :
    k = 0x0#4 ∨ k = 0x1#4 ∨ k = 0x2#4 ∨ k = 0x3#4 ∨ k = 0x4#4 ∨ k = 0x5#4 ∨ k = 0x6#4 ∨ k = 0x7#4 ∨
    k = 0x8#4 ∨ k = 0x9#4 ∨ k = 0xA#4 ∨ k = 0xB#4 ∨ k = 0xC#4 ∨ k = 0xD#4 ∨ k = 0xE#4 ∨ k = 0xF#4 := by
  revert k; decide

/-! Decode, one lemma per high nibble. -/

theorem decodeWord_op0 {w : Word} (h : opField w = 0x0#4) : decodeWord w = some (decodeGroup0 w) := by
  simp [decodeWord, h]

theorem decodeWord_op1 {w : Word} (h : opField w = 0x1#4) : decodeWord w = some (.jp (nnnField w)) := by
  simp [decodeWord, h]

theorem decodeWord_op2 {w : Word} (h : opField w = 0x2#4) : decodeWord w = some (.call (nnnField w)) := by
  simp [decodeWord, h]

theorem decodeWord_op3 {w : Word} (h : opField w = 0x3#4) : decodeWord w = some (.seImm (xField w) (nnField w)) := by
  simp [decodeWord, h]

theorem decodeWord_op4 {w : Word} (h : opField w = 0x4#4) : decodeWord w = some (.sneImm (xField w) (nnField w)) := by
  simp [decodeWord, h]

theorem decodeWord_op5 {w : Word} (h : opField w = 0x5#4) : decodeWord w = decodeZeroLow w (.seReg (xField w) (yField w)) := by
  simp [decodeWord, h]

theorem decodeWord_op6 {w : Word} (h : opField w = 0x6#4) : decodeWord w = some (.ldImm (xField w) (nnField w)) := by
  simp [decodeWord, h]

theorem decodeWord_op7 {w : Word} (h : opField w = 0x7#4) : decodeWord w = some (.addImm (xField w) (nnField w)) := by
  simp [decodeWord, h]

theorem decodeWord_op8 {w : Word} (h : opField w = 0x8#4) : decodeWord w = decodeGroup8 w := by
  simp [decodeWord, h]

theorem decodeWord_op9 {w : Word} (h : opField w = 0x9#4) : decodeWord w = decodeZeroLow w (.sneReg (xField w) (yField w)) := by
  simp [decodeWord, h]

theorem decodeWord_opA {w : Word} (h : opField w = 0xA#4) : decodeWord w = some (.ldI (nnnField w)) := by
  simp [decodeWord, h]

theorem decodeWord_opB {w : Word} (h : opField w = 0xB#4) : decodeWord w = some (.jpV0 (nnnField w)) := by
  simp [decodeWord, h]

theorem decodeWord_opC {w : Word} (h : opField w = 0xC#4) : decodeWord w = some (.rnd (xField w) (nnField w)) := by
  simp [decodeWord, h]

theorem decodeWord_opD {w : Word} (h : opField w = 0xD#4) : decodeWord w = some (.drw (xField w) (yField w) (nField w)) := by
  simp [decodeWord, h]

theorem decodeWord_opE {w : Word} (h : opField w = 0xE#4) : decodeWord w = decodeGroupE w := by
  simp [decodeWord, h]

theorem decodeWord_opF {w : Word} (h : opField w = 0xF#4) : decodeWord w = decodeGroupF w := by
  simp [decodeWord, h]

/-- What the opcode table's word is decoded to. -/
theorem decodeTableWord_eq (nbits w : Nat) : decodeTableWord nbits w = decodeWord (tableWord nbits w) := by
  simp only [decodeTableWord, decode, wordOfBytes_bytes]
  cases decodeWord (tableWord nbits w) <;> rfl

end Sys2Proof
end

