-- ==== Sys2Proof/Laws/Memory.lean ====
section
/-! SUPPORT. Memory: reads after writes, the canonical form, and everything a run of reads or writes can do. -/

namespace Sys2Proof.Machine

theorem Memory.read_entry_append (a b : Nat) (v : Byte) (m : Memory) :
    Memory.read (Memory.entry a v ++ m) b
      = if b = a ∧ v ≠ bootByte a then v else Memory.read m b := by
  unfold Memory.entry
  by_cases hv : v = bootByte a <;> by_cases hb : b = a <;> simp [hv, hb, Memory.read]

/-- A write leaves every other address alone. -/
theorem Memory.read_write_other (m : Memory) {a b : Nat} (v : Byte) (h : b ≠ a) :
    Memory.read (Memory.write m a v) b = Memory.read m b := by
  induction m with
  | nil =>
    have := Memory.read_entry_append a b v []
    simpa [Memory.write, h] using this
  | cons e m ih =>
    obtain ⟨a', b'⟩ := e
    unfold Memory.write
    split
    · rw [Memory.read_entry_append]; simp [h]
    · split
      · rename_i _ heq
        subst heq
        rw [Memory.read_entry_append]; simp [h, Memory.read]
      · simp only [Memory.read, ih]

/-- Below its first address a canonical memory reads as at boot. -/
theorem Memory.read_below {m : Memory} {lo a : Nat} (hm : Memory.wfFrom lo m = true) (h : a < lo) :
    Memory.read m a = bootByte a := by
  induction m generalizing lo with
  | nil => rfl
  | cons e m ih =>
    obtain ⟨a', b'⟩ := e
    simp only [Memory.wfFrom, Bool.and_eq_true, decide_eq_true_eq] at hm
    obtain ⟨⟨⟨h1, _⟩, _⟩, h4⟩ := hm
    have hne : a ≠ a' := by omega
    simp only [Memory.read, hne, if_false]
    exact ih h4 (by omega)

/-- A canonical memory is canonical from any lower address. -/
theorem Memory.wfFrom_mono {m : Memory} {lo lo' : Nat} (hm : Memory.wfFrom lo m = true) (h : lo' ≤ lo) :
    Memory.wfFrom lo' m = true := by
  cases m with
  | nil => rfl
  | cons e m =>
    obtain ⟨a', b'⟩ := e
    simp only [Memory.wfFrom, Bool.and_eq_true, decide_eq_true_eq] at hm ⊢
    exact ⟨⟨⟨by omega, hm.1.1.2⟩, hm.1.2⟩, hm.2⟩

/-- A read of the address written gives the byte written. -/
theorem Memory.read_write_same_from {m : Memory} {lo a : Nat} (v : Byte) (hm : Memory.wfFrom lo m = true) :
    Memory.read (Memory.write m a v) a = v := by
  induction m generalizing lo with
  | nil =>
    have := Memory.read_entry_append a a v []
    simp only [Memory.write, List.append_nil] at this ⊢
    rw [this]
    by_cases hv : v = bootByte a <;> simp [hv, Memory.read]
  | cons e m ih =>
    obtain ⟨a', b'⟩ := e
    have hm' := hm
    simp only [Memory.wfFrom, Bool.and_eq_true, decide_eq_true_eq] at hm
    obtain ⟨⟨⟨h1, h2⟩, h3⟩, h4⟩ := hm
    unfold Memory.write
    split
    · rename_i hlt
      rw [Memory.read_entry_append]
      have hb : Memory.read ((a', b') :: m) a = bootByte a :=
        Memory.read_below (lo := a') (by simp [Memory.wfFrom, h2, h3, h4]) hlt
      by_cases hv : v = bootByte a <;> simp [hv, hb]
    · split
      · rename_i _ heq
        subst heq
        rw [Memory.read_entry_append]
        have hb : Memory.read m a = bootByte a := Memory.read_below h4 (by omega)
        by_cases hv : v = bootByte a <;> simp [hv, hb]
      · rename_i _ hne
        simp only [Memory.read, hne, if_false]
        exact ih h4

theorem Memory.read_write_same {m : Memory} {a : Nat} (v : Byte) (hm : Memory.wf m = true) :
    Memory.read (Memory.write m a v) a = v := Memory.read_write_same_from v hm

theorem Memory.wfFrom_entry {lo a : Nat} (v : Byte) {m : Memory} (h1 : lo ≤ a) (h2 : a < Config.memSize)
    (hm : Memory.wfFrom (a + 1) m = true) : Memory.wfFrom lo (Memory.entry a v ++ m) = true := by
  unfold Memory.entry
  split
  · exact Memory.wfFrom_mono hm (by omega)
  · rename_i hv
    simp [Memory.wfFrom, h1, h2, hv, hm]

/-- A write in range keeps the canonical form. -/
theorem Memory.wfFrom_write {m : Memory} {lo a : Nat} (v : Byte) (hm : Memory.wfFrom lo m = true) (h1 : lo ≤ a)
    (h2 : a < Config.memSize) : Memory.wfFrom lo (Memory.write m a v) = true := by
  induction m generalizing lo with
  | nil =>
    have := Memory.wfFrom_entry (lo := lo) v (m := []) h1 h2 rfl
    simpa [Memory.write] using this
  | cons e m ih =>
    obtain ⟨a', b'⟩ := e
    simp only [Memory.wfFrom, Bool.and_eq_true, decide_eq_true_eq] at hm
    obtain ⟨⟨⟨g1, g2⟩, g3⟩, g4⟩ := hm
    unfold Memory.write
    split
    · rename_i hlt
      exact Memory.wfFrom_entry v h1 h2 (by simp [Memory.wfFrom, g2, g3, g4]; omega)
    · split
      · rename_i _ heq
        subst heq
        exact Memory.wfFrom_entry v h1 h2 g4
      · rename_i hge hne
        simp only [Memory.wfFrom, Bool.and_eq_true, decide_eq_true_eq]
        exact ⟨⟨⟨g1, g2⟩, g3⟩, ih g4 (by omega)⟩

theorem Memory.wf_write {m : Memory} {a : Nat} (v : Byte) (hm : Memory.wf m = true) (h : a < Config.memSize) :
    Memory.wf (Memory.write m a v) = true := Memory.wfFrom_write v hm (Nat.zero_le a) h

/-- The boot memory, which lists nothing, is canonical. -/
theorem Memory.wf_nil : Memory.wf [] = true := rfl

/-- Two canonical memories that read the same everywhere are the same data. -/
theorem Memory.eq_of_read_eq {m m' : Memory} {lo lo' : Nat} (hm : Memory.wfFrom lo m = true)
    (hm' : Memory.wfFrom lo' m' = true) (h : ∀ a, Memory.read m a = Memory.read m' a) : m = m' := by
  induction m generalizing m' lo lo' with
  | nil =>
    cases m' with
    | nil => rfl
    | cons e t =>
      obtain ⟨a, b⟩ := e
      simp only [Memory.wfFrom, Bool.and_eq_true, decide_eq_true_eq, bne_iff_ne] at hm'
      have := h a
      simp [Memory.read] at this
      exact absurd this.symm hm'.1.2
  | cons e t ih =>
    obtain ⟨a, b⟩ := e
    simp only [Memory.wfFrom, Bool.and_eq_true, decide_eq_true_eq, bne_iff_ne] at hm
    cases m' with
    | nil =>
      have := h a
      simp [Memory.read] at this
      exact absurd this hm.1.2
    | cons e' t' =>
      obtain ⟨a', b'⟩ := e'
      simp only [Memory.wfFrom, Bool.and_eq_true, decide_eq_true_eq, bne_iff_ne] at hm'
      rcases Nat.lt_trichotomy a a' with hlt | heq | hgt
      · have h1 : Memory.read ((a', b') :: t') a = bootByte a :=
          Memory.read_below (lo := a') (by simp [Memory.wfFrom, hm'.1.1.2, hm'.1.2, hm'.2]) hlt
        have := h a
        rw [h1] at this
        simp [Memory.read] at this
        exact absurd this hm.1.2
      · subst heq
        have hb : b = b' := by simpa [Memory.read] using h a
        subst hb
        have : t = t' := by
          apply ih hm.2 hm'.2
          intro c
          by_cases hc : c = a
          · subst hc
            rw [Memory.read_below hm.2 (by omega), Memory.read_below hm'.2 (by omega)]
          · simpa [Memory.read, hc] using h c
        rw [this]
      · have h1 : Memory.read ((a, b) :: t) a' = bootByte a' :=
          Memory.read_below (lo := a) (by simp [Memory.wfFrom, hm.1.1.2, hm.1.2, hm.2]) hgt
        have := h a'
        rw [h1] at this
        simp [Memory.read] at this
        exact absurd this.symm hm'.1.2

/-- A run of reads in range gives the bytes in order. -/
theorem Memory.readRun_ok (m : Memory) {a n : Nat} (h : n = 0 ∨ a + n ≤ Config.memSize) :
    Memory.readRun m a n = .ok ((List.range n).map fun k => Memory.read m (a + k)) := by
  induction n generalizing a with
  | zero => rfl
  | succ n ih =>
    have hn : a + (n + 1) ≤ Config.memSize := by omega
    have h1 : ¬ Config.memSize ≤ a := by omega
    simp only [Memory.readRun, Memory.memRead, h1, if_false]
    rw [ih (by omega)]
    simp [List.range_succ_eq_map, Nat.add_assoc, Nat.add_comm 1]

/-- A run of reads that leaves the address space faults at the lowest address outside it. -/
theorem Memory.readRun_fault (m : Memory) {a n : Nat} (h0 : n ≠ 0) (h : Config.memSize < a + n) :
    Memory.readRun m a n = .error (max a Config.memSize) := by
  induction n generalizing a with
  | zero => exact absurd rfl h0
  | succ n ih =>
    by_cases h1 : Config.memSize ≤ a
    · simp [Memory.readRun, Memory.memRead, h1]
    · have hn : n ≠ 0 := by omega
      simp only [Memory.readRun, Memory.memRead, h1, if_false]
      rw [ih hn (by omega)]
      have : max (a + 1) Config.memSize = max a Config.memSize := by omega
      simp [this]

/-- Everything a run of writes in range does: the listed bytes stand at their addresses, every other byte is as before,
and the canonical form is kept. -/
theorem Memory.writeRun_ok {m : Memory} {a : Nat} {bs : List Byte} (hm : Memory.wf m = true)
    (h : bs = [] ∨ a + bs.length ≤ Config.memSize) :
    ∃ m', Memory.writeRun m a bs = .ok m' ∧ Memory.wf m' = true ∧
      ∀ c, Memory.read m' c = if a ≤ c then (bs[c - a]?).getD (Memory.read m c) else Memory.read m c := by
  induction bs generalizing m a with
  | nil => exact ⟨m, rfl, hm, by simp⟩
  | cons b bs ih =>
    have hl : a + (bs.length + 1) ≤ Config.memSize := by simpa using h
    have h1 : ¬ Config.memSize ≤ a := by omega
    obtain ⟨m', e, w, r⟩ := ih (m := Memory.write m a b) (a := a + 1)
      (Memory.wf_write b hm (by omega)) (.inr (by omega))
    refine ⟨m', by simp [Memory.writeRun, Memory.memWrite, h1, e], w, fun c => ?_⟩
    rw [r c]
    rcases Nat.lt_trichotomy c a with hc | hc | hc
    · have : ¬ a + 1 ≤ c := by omega
      have : ¬ a ≤ c := by omega
      simp [*, Memory.read_write_other m b (Nat.ne_of_lt hc)]
    · subst hc
      simp [Memory.read_write_same b hm]
    · have e1 : a + 1 ≤ c := by omega
      have e2 : a ≤ c := by omega
      have e3 : c - a = (c - (a + 1)) + 1 := by omega
      simp [e1, e2, e3, Memory.read_write_other m b (Nat.ne_of_gt hc)]

/-- A run of writes in range completes, whatever form memory has, and leaves every address outside the run alone. -/
theorem Memory.writeRun_frame {m : Memory} {a : Nat} {bs : List Byte} (h : bs = [] ∨ a + bs.length ≤ Config.memSize) :
    ∃ m', Memory.writeRun m a bs = .ok m' ∧
      ∀ c, (c < a ∨ a + bs.length ≤ c) → Memory.read m' c = Memory.read m c := by
  induction bs generalizing m a with
  | nil => exact ⟨m, rfl, fun _ _ => rfl⟩
  | cons b bs ih =>
    have hl : a + (bs.length + 1) ≤ Config.memSize := by simpa using h
    have h1 : ¬ Config.memSize ≤ a := by omega
    obtain ⟨m', e, r⟩ := ih (m := Memory.write m a b) (a := a + 1) (.inr (by omega))
    refine ⟨m', by simp [Memory.writeRun, Memory.memWrite, h1, e], fun c hc => ?_⟩
    have hc' : c < a ∨ a + (bs.length + 1) ≤ c := by simpa using hc
    rw [r c (by omega), Memory.read_write_other m b (by omega)]

/-- A run of writes that leaves the address space faults at the lowest address outside it. -/
theorem Memory.writeRun_fault {m : Memory} {a : Nat} {bs : List Byte} (h0 : bs ≠ [])
    (h : Config.memSize < a + bs.length) : Memory.writeRun m a bs = .error (max a Config.memSize) := by
  induction bs generalizing m a with
  | nil => exact absurd rfl h0
  | cons b bs ih =>
    by_cases h1 : Config.memSize ≤ a
    · simp [Memory.writeRun, Memory.memWrite, h1]
    · have hl : Config.memSize < a + (bs.length + 1) := by simpa using h
      have hn : bs ≠ [] := by rintro rfl; simp at hl; omega
      simp only [Memory.writeRun, Memory.memWrite, h1, if_false]
      rw [ih hn (by omega)]
      have : max (a + 1) Config.memSize = max a Config.memSize := by omega
      simp [this]

/-- Every memory operation that answers a memory keeps the canonical form. -/
theorem Memory.writeRun_wf {m m' : Memory} {a : Nat} {bs : List Byte} (hm : Memory.wf m = true)
    (h : Memory.writeRun m a bs = .ok m') : Memory.wf m' = true := by
  induction bs generalizing m a with
  | nil => simp only [Memory.writeRun, Except.ok.injEq] at h; exact h ▸ hm
  | cons b bs ih =>
    by_cases h1 : Config.memSize ≤ a
    · simp [Memory.writeRun, Memory.memWrite, h1] at h
    · simp only [Memory.writeRun, Memory.memWrite, h1, if_false] at h
      exact ih (Memory.wf_write b hm (by omega)) h

/-- All that a faulting run of reads can answer. -/
theorem Memory.readRun_error {m : Memory} {a n e : Nat} (h : Memory.readRun m a n = .error e) :
    e = max a Config.memSize ∧ n ≠ 0 ∧ Config.memSize < a + n := by
  by_cases hc : n = 0 ∨ a + n ≤ Config.memSize
  · rw [Memory.readRun_ok _ hc] at h; cases h
  · obtain ⟨h0, h1⟩ := not_or.mp hc
    rw [Memory.readRun_fault _ h0 (by omega)] at h
    cases h
    exact ⟨rfl, h0, by omega⟩

/-- All that a faulting run of writes can answer. -/
theorem Memory.writeRun_error {m : Memory} {a e : Nat} {bs : List Byte} (h : Memory.writeRun m a bs = .error e) :
    e = max a Config.memSize ∧ bs ≠ [] ∧ Config.memSize < a + bs.length := by
  by_cases hc : bs = [] ∨ a + bs.length ≤ Config.memSize
  · obtain ⟨m', e', _⟩ := Memory.writeRun_frame (m := m) hc
    rw [e'] at h; cases h
  · obtain ⟨h0, h1⟩ := not_or.mp hc
    rw [Memory.writeRun_fault h0 (by omega)] at h
    cases h
    exact ⟨rfl, h0, by omega⟩

end Sys2Proof.Machine
end

