-- ==== Sys2Proof/Laws/State.lean ====
section
/-! SUPPORT. One lemma per field and accessor per update of the state, and what the indexed updates do to their own
field. -/

namespace Sys2Proof.Machine

/-! `setV` -/

@[simp] theorem State.setV_v (s : State) (x : Nibble) (b : Byte) : (s.setV x b).v = s.v.set x.toNat b x.isLt := rfl
@[simp] theorem State.setV_i (s : State) (x : Nibble) (b : Byte) : (s.setV x b).i = s.i := rfl
@[simp] theorem State.setV_pc (s : State) (x : Nibble) (b : Byte) : (s.setV x b).pc = s.pc := rfl
@[simp] theorem State.setV_sp (s : State) (x : Nibble) (b : Byte) : (s.setV x b).sp = s.sp := rfl
@[simp] theorem State.setV_stack (s : State) (x : Nibble) (b : Byte) : (s.setV x b).stack = s.stack := rfl
@[simp] theorem State.setV_dt (s : State) (x : Nibble) (b : Byte) : (s.setV x b).dt = s.dt := rfl
@[simp] theorem State.setV_st (s : State) (x : Nibble) (b : Byte) : (s.setV x b).st = s.st := rfl
@[simp] theorem State.setV_fb (s : State) (x : Nibble) (b : Byte) : (s.setV x b).fb = s.fb := rfl
@[simp] theorem State.setV_key (s : State) (x : Nibble) (b : Byte) : (s.setV x b).key = s.key := rfl
@[simp] theorem State.setV_run (s : State) (x : Nibble) (b : Byte) : (s.setV x b).run = s.run := rfl
@[simp] theorem State.setV_mem (s : State) (x : Nibble) (b : Byte) : (s.setV x b).mem = s.mem := rfl
@[simp] theorem State.setV_draws (s : State) (x : Nibble) (b : Byte) : (s.setV x b).draws = s.draws := rfl
@[simp] theorem State.setV_pending (s : State) (x : Nibble) (b : Byte) : (s.setV x b).pending = s.pending := rfl
@[simp] theorem State.setV_slot (s : State) (x : Nibble) (b : Byte) (l : Nibble) : (s.setV x b).slot l = s.slot l := rfl
@[simp] theorem State.setV_isPressed (s : State) (x : Nibble) (b : Byte) (l : Nibble) : (s.setV x b).isPressed l = s.isPressed l := rfl
@[simp] theorem State.setV_byteAt (s : State) (x : Nibble) (b : Byte) (a : Nat) : (s.setV x b).byteAt a = s.byteAt a := rfl
@[simp] theorem State.setV_pixel (s : State) (x : Nibble) (b : Byte) (row : Fin 32) (col : Fin 64) : (s.setV x b).pixel row col = s.pixel row col := rfl

/-! `setI` -/

@[simp] theorem State.setI_v (s : State) (w : Word) : (s.setI w).v = s.v := rfl
@[simp] theorem State.setI_i (s : State) (w : Word) : (s.setI w).i = w := rfl
@[simp] theorem State.setI_pc (s : State) (w : Word) : (s.setI w).pc = s.pc := rfl
@[simp] theorem State.setI_sp (s : State) (w : Word) : (s.setI w).sp = s.sp := rfl
@[simp] theorem State.setI_stack (s : State) (w : Word) : (s.setI w).stack = s.stack := rfl
@[simp] theorem State.setI_dt (s : State) (w : Word) : (s.setI w).dt = s.dt := rfl
@[simp] theorem State.setI_st (s : State) (w : Word) : (s.setI w).st = s.st := rfl
@[simp] theorem State.setI_fb (s : State) (w : Word) : (s.setI w).fb = s.fb := rfl
@[simp] theorem State.setI_key (s : State) (w : Word) : (s.setI w).key = s.key := rfl
@[simp] theorem State.setI_run (s : State) (w : Word) : (s.setI w).run = s.run := rfl
@[simp] theorem State.setI_mem (s : State) (w : Word) : (s.setI w).mem = s.mem := rfl
@[simp] theorem State.setI_draws (s : State) (w : Word) : (s.setI w).draws = s.draws := rfl
@[simp] theorem State.setI_pending (s : State) (w : Word) : (s.setI w).pending = s.pending := rfl
@[simp] theorem State.setI_V (s : State) (w : Word) (reg : Nibble) : (s.setI w).V reg = s.V reg := rfl
@[simp] theorem State.setI_slot (s : State) (w : Word) (l : Nibble) : (s.setI w).slot l = s.slot l := rfl
@[simp] theorem State.setI_isPressed (s : State) (w : Word) (l : Nibble) : (s.setI w).isPressed l = s.isPressed l := rfl
@[simp] theorem State.setI_byteAt (s : State) (w : Word) (a : Nat) : (s.setI w).byteAt a = s.byteAt a := rfl
@[simp] theorem State.setI_pixel (s : State) (w : Word) (row : Fin 32) (col : Fin 64) : (s.setI w).pixel row col = s.pixel row col := rfl

/-! `setPc` -/

@[simp] theorem State.setPc_v (s : State) (w : Word) : (s.setPc w).v = s.v := rfl
@[simp] theorem State.setPc_i (s : State) (w : Word) : (s.setPc w).i = s.i := rfl
@[simp] theorem State.setPc_pc (s : State) (w : Word) : (s.setPc w).pc = w := rfl
@[simp] theorem State.setPc_sp (s : State) (w : Word) : (s.setPc w).sp = s.sp := rfl
@[simp] theorem State.setPc_stack (s : State) (w : Word) : (s.setPc w).stack = s.stack := rfl
@[simp] theorem State.setPc_dt (s : State) (w : Word) : (s.setPc w).dt = s.dt := rfl
@[simp] theorem State.setPc_st (s : State) (w : Word) : (s.setPc w).st = s.st := rfl
@[simp] theorem State.setPc_fb (s : State) (w : Word) : (s.setPc w).fb = s.fb := rfl
@[simp] theorem State.setPc_key (s : State) (w : Word) : (s.setPc w).key = s.key := rfl
@[simp] theorem State.setPc_run (s : State) (w : Word) : (s.setPc w).run = s.run := rfl
@[simp] theorem State.setPc_mem (s : State) (w : Word) : (s.setPc w).mem = s.mem := rfl
@[simp] theorem State.setPc_draws (s : State) (w : Word) : (s.setPc w).draws = s.draws := rfl
@[simp] theorem State.setPc_pending (s : State) (w : Word) : (s.setPc w).pending = s.pending := rfl
@[simp] theorem State.setPc_V (s : State) (w : Word) (reg : Nibble) : (s.setPc w).V reg = s.V reg := rfl
@[simp] theorem State.setPc_slot (s : State) (w : Word) (l : Nibble) : (s.setPc w).slot l = s.slot l := rfl
@[simp] theorem State.setPc_isPressed (s : State) (w : Word) (l : Nibble) : (s.setPc w).isPressed l = s.isPressed l := rfl
@[simp] theorem State.setPc_byteAt (s : State) (w : Word) (a : Nat) : (s.setPc w).byteAt a = s.byteAt a := rfl
@[simp] theorem State.setPc_pixel (s : State) (w : Word) (row : Fin 32) (col : Fin 64) : (s.setPc w).pixel row col = s.pixel row col := rfl

/-! `setSp` -/

@[simp] theorem State.setSp_v (s : State) (n : Byte) : (s.setSp n).v = s.v := rfl
@[simp] theorem State.setSp_i (s : State) (n : Byte) : (s.setSp n).i = s.i := rfl
@[simp] theorem State.setSp_pc (s : State) (n : Byte) : (s.setSp n).pc = s.pc := rfl
@[simp] theorem State.setSp_sp (s : State) (n : Byte) : (s.setSp n).sp = n := rfl
@[simp] theorem State.setSp_stack (s : State) (n : Byte) : (s.setSp n).stack = s.stack := rfl
@[simp] theorem State.setSp_dt (s : State) (n : Byte) : (s.setSp n).dt = s.dt := rfl
@[simp] theorem State.setSp_st (s : State) (n : Byte) : (s.setSp n).st = s.st := rfl
@[simp] theorem State.setSp_fb (s : State) (n : Byte) : (s.setSp n).fb = s.fb := rfl
@[simp] theorem State.setSp_key (s : State) (n : Byte) : (s.setSp n).key = s.key := rfl
@[simp] theorem State.setSp_run (s : State) (n : Byte) : (s.setSp n).run = s.run := rfl
@[simp] theorem State.setSp_mem (s : State) (n : Byte) : (s.setSp n).mem = s.mem := rfl
@[simp] theorem State.setSp_draws (s : State) (n : Byte) : (s.setSp n).draws = s.draws := rfl
@[simp] theorem State.setSp_pending (s : State) (n : Byte) : (s.setSp n).pending = s.pending := rfl
@[simp] theorem State.setSp_V (s : State) (n : Byte) (reg : Nibble) : (s.setSp n).V reg = s.V reg := rfl
@[simp] theorem State.setSp_slot (s : State) (n : Byte) (l : Nibble) : (s.setSp n).slot l = s.slot l := rfl
@[simp] theorem State.setSp_isPressed (s : State) (n : Byte) (l : Nibble) : (s.setSp n).isPressed l = s.isPressed l := rfl
@[simp] theorem State.setSp_byteAt (s : State) (n : Byte) (a : Nat) : (s.setSp n).byteAt a = s.byteAt a := rfl
@[simp] theorem State.setSp_pixel (s : State) (n : Byte) (row : Fin 32) (col : Fin 64) : (s.setSp n).pixel row col = s.pixel row col := rfl

/-! `setSlot` -/

@[simp] theorem State.setSlot_v (s : State) (j : Nibble) (w : Word) : (s.setSlot j w).v = s.v := rfl
@[simp] theorem State.setSlot_i (s : State) (j : Nibble) (w : Word) : (s.setSlot j w).i = s.i := rfl
@[simp] theorem State.setSlot_pc (s : State) (j : Nibble) (w : Word) : (s.setSlot j w).pc = s.pc := rfl
@[simp] theorem State.setSlot_sp (s : State) (j : Nibble) (w : Word) : (s.setSlot j w).sp = s.sp := rfl
@[simp] theorem State.setSlot_stack (s : State) (j : Nibble) (w : Word) : (s.setSlot j w).stack = s.stack.set j.toNat w j.isLt := rfl
@[simp] theorem State.setSlot_dt (s : State) (j : Nibble) (w : Word) : (s.setSlot j w).dt = s.dt := rfl
@[simp] theorem State.setSlot_st (s : State) (j : Nibble) (w : Word) : (s.setSlot j w).st = s.st := rfl
@[simp] theorem State.setSlot_fb (s : State) (j : Nibble) (w : Word) : (s.setSlot j w).fb = s.fb := rfl
@[simp] theorem State.setSlot_key (s : State) (j : Nibble) (w : Word) : (s.setSlot j w).key = s.key := rfl
@[simp] theorem State.setSlot_run (s : State) (j : Nibble) (w : Word) : (s.setSlot j w).run = s.run := rfl
@[simp] theorem State.setSlot_mem (s : State) (j : Nibble) (w : Word) : (s.setSlot j w).mem = s.mem := rfl
@[simp] theorem State.setSlot_draws (s : State) (j : Nibble) (w : Word) : (s.setSlot j w).draws = s.draws := rfl
@[simp] theorem State.setSlot_pending (s : State) (j : Nibble) (w : Word) : (s.setSlot j w).pending = s.pending := rfl
@[simp] theorem State.setSlot_V (s : State) (j : Nibble) (w : Word) (reg : Nibble) : (s.setSlot j w).V reg = s.V reg := rfl
@[simp] theorem State.setSlot_isPressed (s : State) (j : Nibble) (w : Word) (l : Nibble) : (s.setSlot j w).isPressed l = s.isPressed l := rfl
@[simp] theorem State.setSlot_byteAt (s : State) (j : Nibble) (w : Word) (a : Nat) : (s.setSlot j w).byteAt a = s.byteAt a := rfl
@[simp] theorem State.setSlot_pixel (s : State) (j : Nibble) (w : Word) (row : Fin 32) (col : Fin 64) : (s.setSlot j w).pixel row col = s.pixel row col := rfl

/-! `setDt` -/

@[simp] theorem State.setDt_v (s : State) (b : Byte) : (s.setDt b).v = s.v := rfl
@[simp] theorem State.setDt_i (s : State) (b : Byte) : (s.setDt b).i = s.i := rfl
@[simp] theorem State.setDt_pc (s : State) (b : Byte) : (s.setDt b).pc = s.pc := rfl
@[simp] theorem State.setDt_sp (s : State) (b : Byte) : (s.setDt b).sp = s.sp := rfl
@[simp] theorem State.setDt_stack (s : State) (b : Byte) : (s.setDt b).stack = s.stack := rfl
@[simp] theorem State.setDt_dt (s : State) (b : Byte) : (s.setDt b).dt = b := rfl
@[simp] theorem State.setDt_st (s : State) (b : Byte) : (s.setDt b).st = s.st := rfl
@[simp] theorem State.setDt_fb (s : State) (b : Byte) : (s.setDt b).fb = s.fb := rfl
@[simp] theorem State.setDt_key (s : State) (b : Byte) : (s.setDt b).key = s.key := rfl
@[simp] theorem State.setDt_run (s : State) (b : Byte) : (s.setDt b).run = s.run := rfl
@[simp] theorem State.setDt_mem (s : State) (b : Byte) : (s.setDt b).mem = s.mem := rfl
@[simp] theorem State.setDt_draws (s : State) (b : Byte) : (s.setDt b).draws = s.draws := rfl
@[simp] theorem State.setDt_pending (s : State) (b : Byte) : (s.setDt b).pending = s.pending := rfl
@[simp] theorem State.setDt_V (s : State) (b : Byte) (reg : Nibble) : (s.setDt b).V reg = s.V reg := rfl
@[simp] theorem State.setDt_slot (s : State) (b : Byte) (l : Nibble) : (s.setDt b).slot l = s.slot l := rfl
@[simp] theorem State.setDt_isPressed (s : State) (b : Byte) (l : Nibble) : (s.setDt b).isPressed l = s.isPressed l := rfl
@[simp] theorem State.setDt_byteAt (s : State) (b : Byte) (a : Nat) : (s.setDt b).byteAt a = s.byteAt a := rfl
@[simp] theorem State.setDt_pixel (s : State) (b : Byte) (row : Fin 32) (col : Fin 64) : (s.setDt b).pixel row col = s.pixel row col := rfl

/-! `setSt` -/

@[simp] theorem State.setSt_v (s : State) (b : Byte) : (s.setSt b).v = s.v := rfl
@[simp] theorem State.setSt_i (s : State) (b : Byte) : (s.setSt b).i = s.i := rfl
@[simp] theorem State.setSt_pc (s : State) (b : Byte) : (s.setSt b).pc = s.pc := rfl
@[simp] theorem State.setSt_sp (s : State) (b : Byte) : (s.setSt b).sp = s.sp := rfl
@[simp] theorem State.setSt_stack (s : State) (b : Byte) : (s.setSt b).stack = s.stack := rfl
@[simp] theorem State.setSt_dt (s : State) (b : Byte) : (s.setSt b).dt = s.dt := rfl
@[simp] theorem State.setSt_st (s : State) (b : Byte) : (s.setSt b).st = b := rfl
@[simp] theorem State.setSt_fb (s : State) (b : Byte) : (s.setSt b).fb = s.fb := rfl
@[simp] theorem State.setSt_key (s : State) (b : Byte) : (s.setSt b).key = s.key := rfl
@[simp] theorem State.setSt_run (s : State) (b : Byte) : (s.setSt b).run = s.run := rfl
@[simp] theorem State.setSt_mem (s : State) (b : Byte) : (s.setSt b).mem = s.mem := rfl
@[simp] theorem State.setSt_draws (s : State) (b : Byte) : (s.setSt b).draws = s.draws := rfl
@[simp] theorem State.setSt_pending (s : State) (b : Byte) : (s.setSt b).pending = s.pending := rfl
@[simp] theorem State.setSt_V (s : State) (b : Byte) (reg : Nibble) : (s.setSt b).V reg = s.V reg := rfl
@[simp] theorem State.setSt_slot (s : State) (b : Byte) (l : Nibble) : (s.setSt b).slot l = s.slot l := rfl
@[simp] theorem State.setSt_isPressed (s : State) (b : Byte) (l : Nibble) : (s.setSt b).isPressed l = s.isPressed l := rfl
@[simp] theorem State.setSt_byteAt (s : State) (b : Byte) (a : Nat) : (s.setSt b).byteAt a = s.byteAt a := rfl
@[simp] theorem State.setSt_pixel (s : State) (b : Byte) (row : Fin 32) (col : Fin 64) : (s.setSt b).pixel row col = s.pixel row col := rfl

/-! `setFb` -/

@[simp] theorem State.setFb_v (s : State) (f : Framebuffer) : (s.setFb f).v = s.v := rfl
@[simp] theorem State.setFb_i (s : State) (f : Framebuffer) : (s.setFb f).i = s.i := rfl
@[simp] theorem State.setFb_pc (s : State) (f : Framebuffer) : (s.setFb f).pc = s.pc := rfl
@[simp] theorem State.setFb_sp (s : State) (f : Framebuffer) : (s.setFb f).sp = s.sp := rfl
@[simp] theorem State.setFb_stack (s : State) (f : Framebuffer) : (s.setFb f).stack = s.stack := rfl
@[simp] theorem State.setFb_dt (s : State) (f : Framebuffer) : (s.setFb f).dt = s.dt := rfl
@[simp] theorem State.setFb_st (s : State) (f : Framebuffer) : (s.setFb f).st = s.st := rfl
@[simp] theorem State.setFb_fb (s : State) (f : Framebuffer) : (s.setFb f).fb = f := rfl
@[simp] theorem State.setFb_key (s : State) (f : Framebuffer) : (s.setFb f).key = s.key := rfl
@[simp] theorem State.setFb_run (s : State) (f : Framebuffer) : (s.setFb f).run = s.run := rfl
@[simp] theorem State.setFb_mem (s : State) (f : Framebuffer) : (s.setFb f).mem = s.mem := rfl
@[simp] theorem State.setFb_draws (s : State) (f : Framebuffer) : (s.setFb f).draws = s.draws := rfl
@[simp] theorem State.setFb_pending (s : State) (f : Framebuffer) : (s.setFb f).pending = s.pending := rfl
@[simp] theorem State.setFb_V (s : State) (f : Framebuffer) (reg : Nibble) : (s.setFb f).V reg = s.V reg := rfl
@[simp] theorem State.setFb_slot (s : State) (f : Framebuffer) (l : Nibble) : (s.setFb f).slot l = s.slot l := rfl
@[simp] theorem State.setFb_isPressed (s : State) (f : Framebuffer) (l : Nibble) : (s.setFb f).isPressed l = s.isPressed l := rfl
@[simp] theorem State.setFb_byteAt (s : State) (f : Framebuffer) (a : Nat) : (s.setFb f).byteAt a = s.byteAt a := rfl

/-! `setKeyLevel` -/

@[simp] theorem State.setKeyLevel_v (s : State) (k : Nibble) (p : Bool) : (s.setKeyLevel k p).v = s.v := rfl
@[simp] theorem State.setKeyLevel_i (s : State) (k : Nibble) (p : Bool) : (s.setKeyLevel k p).i = s.i := rfl
@[simp] theorem State.setKeyLevel_pc (s : State) (k : Nibble) (p : Bool) : (s.setKeyLevel k p).pc = s.pc := rfl
@[simp] theorem State.setKeyLevel_sp (s : State) (k : Nibble) (p : Bool) : (s.setKeyLevel k p).sp = s.sp := rfl
@[simp] theorem State.setKeyLevel_stack (s : State) (k : Nibble) (p : Bool) : (s.setKeyLevel k p).stack = s.stack := rfl
@[simp] theorem State.setKeyLevel_dt (s : State) (k : Nibble) (p : Bool) : (s.setKeyLevel k p).dt = s.dt := rfl
@[simp] theorem State.setKeyLevel_st (s : State) (k : Nibble) (p : Bool) : (s.setKeyLevel k p).st = s.st := rfl
@[simp] theorem State.setKeyLevel_fb (s : State) (k : Nibble) (p : Bool) : (s.setKeyLevel k p).fb = s.fb := rfl
@[simp] theorem State.setKeyLevel_key (s : State) (k : Nibble) (p : Bool) : (s.setKeyLevel k p).key = s.key.set k.toNat p k.isLt := rfl
@[simp] theorem State.setKeyLevel_run (s : State) (k : Nibble) (p : Bool) : (s.setKeyLevel k p).run = s.run := rfl
@[simp] theorem State.setKeyLevel_mem (s : State) (k : Nibble) (p : Bool) : (s.setKeyLevel k p).mem = s.mem := rfl
@[simp] theorem State.setKeyLevel_draws (s : State) (k : Nibble) (p : Bool) : (s.setKeyLevel k p).draws = s.draws := rfl
@[simp] theorem State.setKeyLevel_pending (s : State) (k : Nibble) (p : Bool) : (s.setKeyLevel k p).pending = s.pending := rfl
@[simp] theorem State.setKeyLevel_V (s : State) (k : Nibble) (p : Bool) (reg : Nibble) : (s.setKeyLevel k p).V reg = s.V reg := rfl
@[simp] theorem State.setKeyLevel_slot (s : State) (k : Nibble) (p : Bool) (l : Nibble) : (s.setKeyLevel k p).slot l = s.slot l := rfl
@[simp] theorem State.setKeyLevel_byteAt (s : State) (k : Nibble) (p : Bool) (a : Nat) : (s.setKeyLevel k p).byteAt a = s.byteAt a := rfl
@[simp] theorem State.setKeyLevel_pixel (s : State) (k : Nibble) (p : Bool) (row : Fin 32) (col : Fin 64) : (s.setKeyLevel k p).pixel row col = s.pixel row col := rfl

/-! `setRun` -/

@[simp] theorem State.setRun_v (s : State) (r : Run) : (s.setRun r).v = s.v := rfl
@[simp] theorem State.setRun_i (s : State) (r : Run) : (s.setRun r).i = s.i := rfl
@[simp] theorem State.setRun_pc (s : State) (r : Run) : (s.setRun r).pc = s.pc := rfl
@[simp] theorem State.setRun_sp (s : State) (r : Run) : (s.setRun r).sp = s.sp := rfl
@[simp] theorem State.setRun_stack (s : State) (r : Run) : (s.setRun r).stack = s.stack := rfl
@[simp] theorem State.setRun_dt (s : State) (r : Run) : (s.setRun r).dt = s.dt := rfl
@[simp] theorem State.setRun_st (s : State) (r : Run) : (s.setRun r).st = s.st := rfl
@[simp] theorem State.setRun_fb (s : State) (r : Run) : (s.setRun r).fb = s.fb := rfl
@[simp] theorem State.setRun_key (s : State) (r : Run) : (s.setRun r).key = s.key := rfl
@[simp] theorem State.setRun_run (s : State) (r : Run) : (s.setRun r).run = r := rfl
@[simp] theorem State.setRun_mem (s : State) (r : Run) : (s.setRun r).mem = s.mem := rfl
@[simp] theorem State.setRun_draws (s : State) (r : Run) : (s.setRun r).draws = s.draws := rfl
@[simp] theorem State.setRun_pending (s : State) (r : Run) : (s.setRun r).pending = s.pending := rfl
@[simp] theorem State.setRun_V (s : State) (r : Run) (reg : Nibble) : (s.setRun r).V reg = s.V reg := rfl
@[simp] theorem State.setRun_slot (s : State) (r : Run) (l : Nibble) : (s.setRun r).slot l = s.slot l := rfl
@[simp] theorem State.setRun_isPressed (s : State) (r : Run) (l : Nibble) : (s.setRun r).isPressed l = s.isPressed l := rfl
@[simp] theorem State.setRun_byteAt (s : State) (r : Run) (a : Nat) : (s.setRun r).byteAt a = s.byteAt a := rfl
@[simp] theorem State.setRun_pixel (s : State) (r : Run) (row : Fin 32) (col : Fin 64) : (s.setRun r).pixel row col = s.pixel row col := rfl

/-! `setMem` -/

@[simp] theorem State.setMem_v (s : State) (m : Memory) : (s.setMem m).v = s.v := rfl
@[simp] theorem State.setMem_i (s : State) (m : Memory) : (s.setMem m).i = s.i := rfl
@[simp] theorem State.setMem_pc (s : State) (m : Memory) : (s.setMem m).pc = s.pc := rfl
@[simp] theorem State.setMem_sp (s : State) (m : Memory) : (s.setMem m).sp = s.sp := rfl
@[simp] theorem State.setMem_stack (s : State) (m : Memory) : (s.setMem m).stack = s.stack := rfl
@[simp] theorem State.setMem_dt (s : State) (m : Memory) : (s.setMem m).dt = s.dt := rfl
@[simp] theorem State.setMem_st (s : State) (m : Memory) : (s.setMem m).st = s.st := rfl
@[simp] theorem State.setMem_fb (s : State) (m : Memory) : (s.setMem m).fb = s.fb := rfl
@[simp] theorem State.setMem_key (s : State) (m : Memory) : (s.setMem m).key = s.key := rfl
@[simp] theorem State.setMem_run (s : State) (m : Memory) : (s.setMem m).run = s.run := rfl
@[simp] theorem State.setMem_mem (s : State) (m : Memory) : (s.setMem m).mem = m := rfl
@[simp] theorem State.setMem_draws (s : State) (m : Memory) : (s.setMem m).draws = s.draws := rfl
@[simp] theorem State.setMem_pending (s : State) (m : Memory) : (s.setMem m).pending = s.pending := rfl
@[simp] theorem State.setMem_V (s : State) (m : Memory) (reg : Nibble) : (s.setMem m).V reg = s.V reg := rfl
@[simp] theorem State.setMem_slot (s : State) (m : Memory) (l : Nibble) : (s.setMem m).slot l = s.slot l := rfl
@[simp] theorem State.setMem_isPressed (s : State) (m : Memory) (l : Nibble) : (s.setMem m).isPressed l = s.isPressed l := rfl
@[simp] theorem State.setMem_pixel (s : State) (m : Memory) (row : Fin 32) (col : Fin 64) : (s.setMem m).pixel row col = s.pixel row col := rfl

/-! `setDraws` -/

@[simp] theorem State.setDraws_v (s : State) (n : Nat) : (s.setDraws n).v = s.v := rfl
@[simp] theorem State.setDraws_i (s : State) (n : Nat) : (s.setDraws n).i = s.i := rfl
@[simp] theorem State.setDraws_pc (s : State) (n : Nat) : (s.setDraws n).pc = s.pc := rfl
@[simp] theorem State.setDraws_sp (s : State) (n : Nat) : (s.setDraws n).sp = s.sp := rfl
@[simp] theorem State.setDraws_stack (s : State) (n : Nat) : (s.setDraws n).stack = s.stack := rfl
@[simp] theorem State.setDraws_dt (s : State) (n : Nat) : (s.setDraws n).dt = s.dt := rfl
@[simp] theorem State.setDraws_st (s : State) (n : Nat) : (s.setDraws n).st = s.st := rfl
@[simp] theorem State.setDraws_fb (s : State) (n : Nat) : (s.setDraws n).fb = s.fb := rfl
@[simp] theorem State.setDraws_key (s : State) (n : Nat) : (s.setDraws n).key = s.key := rfl
@[simp] theorem State.setDraws_run (s : State) (n : Nat) : (s.setDraws n).run = s.run := rfl
@[simp] theorem State.setDraws_mem (s : State) (n : Nat) : (s.setDraws n).mem = s.mem := rfl
@[simp] theorem State.setDraws_draws (s : State) (n : Nat) : (s.setDraws n).draws = n := rfl
@[simp] theorem State.setDraws_pending (s : State) (n : Nat) : (s.setDraws n).pending = s.pending := rfl
@[simp] theorem State.setDraws_V (s : State) (n : Nat) (reg : Nibble) : (s.setDraws n).V reg = s.V reg := rfl
@[simp] theorem State.setDraws_slot (s : State) (n : Nat) (l : Nibble) : (s.setDraws n).slot l = s.slot l := rfl
@[simp] theorem State.setDraws_isPressed (s : State) (n : Nat) (l : Nibble) : (s.setDraws n).isPressed l = s.isPressed l := rfl
@[simp] theorem State.setDraws_byteAt (s : State) (n : Nat) (a : Nat) : (s.setDraws n).byteAt a = s.byteAt a := rfl
@[simp] theorem State.setDraws_pixel (s : State) (n : Nat) (row : Fin 32) (col : Fin 64) : (s.setDraws n).pixel row col = s.pixel row col := rfl

/-! `setPending` -/

@[simp] theorem State.setPending_v (s : State) (p : List HostAction) : (s.setPending p).v = s.v := rfl
@[simp] theorem State.setPending_i (s : State) (p : List HostAction) : (s.setPending p).i = s.i := rfl
@[simp] theorem State.setPending_pc (s : State) (p : List HostAction) : (s.setPending p).pc = s.pc := rfl
@[simp] theorem State.setPending_sp (s : State) (p : List HostAction) : (s.setPending p).sp = s.sp := rfl
@[simp] theorem State.setPending_stack (s : State) (p : List HostAction) : (s.setPending p).stack = s.stack := rfl
@[simp] theorem State.setPending_dt (s : State) (p : List HostAction) : (s.setPending p).dt = s.dt := rfl
@[simp] theorem State.setPending_st (s : State) (p : List HostAction) : (s.setPending p).st = s.st := rfl
@[simp] theorem State.setPending_fb (s : State) (p : List HostAction) : (s.setPending p).fb = s.fb := rfl
@[simp] theorem State.setPending_key (s : State) (p : List HostAction) : (s.setPending p).key = s.key := rfl
@[simp] theorem State.setPending_run (s : State) (p : List HostAction) : (s.setPending p).run = s.run := rfl
@[simp] theorem State.setPending_mem (s : State) (p : List HostAction) : (s.setPending p).mem = s.mem := rfl
@[simp] theorem State.setPending_draws (s : State) (p : List HostAction) : (s.setPending p).draws = s.draws := rfl
@[simp] theorem State.setPending_pending (s : State) (p : List HostAction) : (s.setPending p).pending = p := rfl
@[simp] theorem State.setPending_V (s : State) (p : List HostAction) (reg : Nibble) : (s.setPending p).V reg = s.V reg := rfl
@[simp] theorem State.setPending_slot (s : State) (p : List HostAction) (l : Nibble) : (s.setPending p).slot l = s.slot l := rfl
@[simp] theorem State.setPending_isPressed (s : State) (p : List HostAction) (l : Nibble) : (s.setPending p).isPressed l = s.isPressed l := rfl
@[simp] theorem State.setPending_byteAt (s : State) (p : List HostAction) (a : Nat) : (s.setPending p).byteAt a = s.byteAt a := rfl
@[simp] theorem State.setPending_pixel (s : State) (p : List HostAction) (row : Fin 32) (col : Fin 64) : (s.setPending p).pixel row col = s.pixel row col := rfl

/-! What an indexed update does to its own field. -/

theorem Nibble.toNat_ne {r x : Nibble} (h : r ≠ x) : x.toNat ≠ r.toNat :=
  fun e => h (BitVec.eq_of_toNat_eq e.symm)

@[simp] theorem State.setV_V (s : State) (x r : Nibble) (b : Byte) :
    (s.setV x b).V r = if r = x then b else s.V r := by
  unfold State.V State.setV
  by_cases h : r = x
  · subst h; simp
  · simp [h, Nibble.toNat_ne h]

@[simp] theorem State.setSlot_slot (s : State) (j l : Nibble) (w : Word) :
    (s.setSlot j w).slot l = if l = j then w else s.slot l := by
  unfold State.slot State.setSlot
  by_cases h : l = j
  · subst h; simp
  · simp [h, Nibble.toNat_ne h]

@[simp] theorem State.setKeyLevel_isPressed (s : State) (k l : Nibble) (p : Bool) :
    (s.setKeyLevel k p).isPressed l = if l = k then p else s.isPressed l := by
  unfold State.isPressed State.setKeyLevel
  by_cases h : l = k
  · subst h; simp
  · simp [h, Nibble.toNat_ne h]

@[simp] theorem Framebuffer.setPixel_pixel (fb : Framebuffer) (row r : Fin 32) (col c : Fin 64) (p : Bool) :
    Framebuffer.pixel (Framebuffer.setPixel fb row col p) r c
      = if r = row ∧ c = col then p else Framebuffer.pixel fb r c := by
  unfold Framebuffer.pixel Framebuffer.setPixel
  by_cases hr : r = row
  · subst hr
    by_cases hc : c = col
    · subst hc; simp
    · have : (col : Nat) ≠ c := fun e => hc (Fin.ext e.symm)
      simp [hc, this]
  · have : (row : Nat) ≠ r := fun e => hr (Fin.ext e.symm)
    simp [hr, this]

@[simp] theorem Framebuffer.clear_pixel (r : Fin 32) (c : Fin 64) :
    Framebuffer.pixel Framebuffer.clear r c = false := by
  simp [Framebuffer.pixel, Framebuffer.clear]

@[simp] theorem State.setFb_pixel (s : State) (f : Framebuffer) (r : Fin 32) (c : Fin 64) :
    (s.setFb f).pixel r c = Framebuffer.pixel f r c := rfl

@[simp] theorem State.setMem_byteAt (s : State) (m : Memory) (a : Nat) :
    (s.setMem m).byteAt a = Memory.read m a := rfl

/-! `advance` and `skip` change the pc and nothing else. -/

@[simp] theorem State.advance_v (s : State) : s.advance.v = s.v := rfl
@[simp] theorem State.advance_i (s : State) : s.advance.i = s.i := rfl
@[simp] theorem State.advance_pc (s : State) : s.advance.pc = s.pc + 2 := rfl
@[simp] theorem State.advance_sp (s : State) : s.advance.sp = s.sp := rfl
@[simp] theorem State.advance_stack (s : State) : s.advance.stack = s.stack := rfl
@[simp] theorem State.advance_dt (s : State) : s.advance.dt = s.dt := rfl
@[simp] theorem State.advance_st (s : State) : s.advance.st = s.st := rfl
@[simp] theorem State.advance_fb (s : State) : s.advance.fb = s.fb := rfl
@[simp] theorem State.advance_key (s : State) : s.advance.key = s.key := rfl
@[simp] theorem State.advance_run (s : State) : s.advance.run = s.run := rfl
@[simp] theorem State.advance_mem (s : State) : s.advance.mem = s.mem := rfl
@[simp] theorem State.advance_draws (s : State) : s.advance.draws = s.draws := rfl
@[simp] theorem State.advance_pending (s : State) : s.advance.pending = s.pending := rfl
@[simp] theorem State.advance_V (s : State) (reg : Nibble) : s.advance.V reg = s.V reg := rfl
@[simp] theorem State.advance_slot (s : State) (l : Nibble) : s.advance.slot l = s.slot l := rfl
@[simp] theorem State.advance_isPressed (s : State) (l : Nibble) : s.advance.isPressed l = s.isPressed l := rfl
@[simp] theorem State.advance_byteAt (s : State) (a : Nat) : s.advance.byteAt a = s.byteAt a := rfl
@[simp] theorem State.advance_pixel (s : State) (row : Fin 32) (col : Fin 64) : s.advance.pixel row col = s.pixel row col := rfl
@[simp] theorem State.skip_v (s : State) : s.skip.v = s.v := rfl
@[simp] theorem State.skip_i (s : State) : s.skip.i = s.i := rfl
@[simp] theorem State.skip_pc (s : State) : s.skip.pc = s.pc + 2 := rfl
@[simp] theorem State.skip_sp (s : State) : s.skip.sp = s.sp := rfl
@[simp] theorem State.skip_stack (s : State) : s.skip.stack = s.stack := rfl
@[simp] theorem State.skip_dt (s : State) : s.skip.dt = s.dt := rfl
@[simp] theorem State.skip_st (s : State) : s.skip.st = s.st := rfl
@[simp] theorem State.skip_fb (s : State) : s.skip.fb = s.fb := rfl
@[simp] theorem State.skip_key (s : State) : s.skip.key = s.key := rfl
@[simp] theorem State.skip_run (s : State) : s.skip.run = s.run := rfl
@[simp] theorem State.skip_mem (s : State) : s.skip.mem = s.mem := rfl
@[simp] theorem State.skip_draws (s : State) : s.skip.draws = s.draws := rfl
@[simp] theorem State.skip_pending (s : State) : s.skip.pending = s.pending := rfl
@[simp] theorem State.skip_V (s : State) (reg : Nibble) : s.skip.V reg = s.V reg := rfl
@[simp] theorem State.skip_slot (s : State) (l : Nibble) : s.skip.slot l = s.slot l := rfl
@[simp] theorem State.skip_isPressed (s : State) (l : Nibble) : s.skip.isPressed l = s.isPressed l := rfl
@[simp] theorem State.skip_byteAt (s : State) (a : Nat) : s.skip.byteAt a = s.byteAt a := rfl
@[simp] theorem State.skip_pixel (s : State) (row : Fin 32) (col : Fin 64) : s.skip.pixel row col = s.pixel row col := rfl

/-- Two register files that agree at every index are equal. -/
theorem regs_ext {a b : Vector Byte 16} (h : ∀ x : Nibble, a[x.toNat]'x.isLt = b[x.toNat]'x.isLt) : a = b := by
  apply Vector.ext
  intro i hi
  have := h (BitVec.ofNat 4 i)
  simpa [Nat.mod_eq_of_lt hi] using this

/-- Two framebuffers that agree at every pixel are equal. -/
theorem fb_ext {a b : Framebuffer} (h : ∀ r c, Framebuffer.pixel a r c = Framebuffer.pixel b r c) : a = b := by
  apply Vector.ext
  intro i hi
  apply Vector.ext
  intro j hj
  exact h ⟨i, hi⟩ ⟨j, hj⟩

end Sys2Proof.Machine
end

