-- ==== Sys2Proof/Laws/Ops.lean ====
section
/-! SUPPORT. For each shared operation, one lemma that says everything it can do. -/

namespace Sys2Proof.Machine

/-! The constants, as numerals. -/

@[simp] theorem Config_memSize : Config.memSize = 4096 := rfl
@[simp] theorem Config_stackDepth : Config.stackDepth = 16 := rfl
@[simp] theorem Config_maxRom : Config.maxRom = 3584 := rfl
@[simp] theorem Config_programStart : Config.programStart = 0x200 := rfl

/-! Skips. -/

@[simp] theorem State.advanceSkipIf_pc (s : State) (c : Bool) :
    (s.advanceSkipIf c).pc = if c then s.pc + 4 else s.pc + 2 := by
  cases c
  · rfl
  · simp [State.advanceSkipIf, BitVec.add_assoc]

/-- A skip changes the pc alone. -/
theorem State.advanceSkipIf_eq (s : State) (c : Bool) :
    s.advanceSkipIf c = s.setPc (if c then s.pc + 4 else s.pc + 2) := by
  cases c
  · rfl
  · simp [State.advanceSkipIf, State.skip, State.advance, State.setPc, BitVec.add_assoc]

/-! Taking a fatal error. -/

theorem State.raise_eq (s : State) (code : ErrorCode) (opcode : Option Word) (info : Option Nat) :
    s.raise code opcode info
      = .next { s with run := .halted { code := code, pc := s.pc, opcode := opcode, info := info } } := rfl

theorem State.raiseIn_eq (s : State) (i : Instr) (code : ErrorCode) (info : Option Nat) :
    s.raiseIn i code info = .next (haltedIn i s code info) := rfl

/-! A digit in a register. -/

/-- A register that holds a digit. -/
theorem State.withDigit_ok {s : State} {i : Instr} {x : Nibble} {go : Nibble → State} (h : (s.V x).toNat ≤ 15) :
    s.withDigit i x go = .next (go ((s.V x).setWidth 4)) := by
  have h' : ¬ (s.V x).toNat > 15 := by omega
  simp [State.withDigit, State.digit, h']

/-- A register that holds no digit. -/
theorem State.withDigit_error {s : State} {i : Instr} {x : Nibble} {go : Nibble → State} (h : 15 < (s.V x).toNat) :
    s.withDigit i x go = .next (haltedIn i s .operandRangeError (some (s.V x).toNat)) := by
  simp [State.withDigit, State.digit, h, State.raiseIn_eq]

/-- All that an instruction with a digit operand can answer. -/
theorem State.withDigit_next {s t : State} {i : Instr} {x : Nibble} {go : Nibble → State}
    (h : s.withDigit i x go = .next t) :
    ((s.V x).toNat ≤ 15 ∧ t = go ((s.V x).setWidth 4)) ∨
    (15 < (s.V x).toNat ∧ t = haltedIn i s .operandRangeError (some (s.V x).toNat)) := by
  by_cases hx : (s.V x).toNat ≤ 15
  · rw [State.withDigit_ok hx] at h
    exact .inl ⟨hx, (Host.Outcome.next.inj h).symm⟩
  · rw [State.withDigit_error (by omega)] at h
    exact .inr ⟨by omega, (Host.Outcome.next.inj h).symm⟩

/-! An access to memory. -/

@[simp] theorem State.orMemoryFault_ok {α : Type} (s : State) (i : Instr) (x : α) (go : α → State) :
    s.orMemoryFault i (.ok x) go = .next (go x) := rfl

@[simp] theorem State.orMemoryFault_error {α : Type} (s : State) (i : Instr) (a : Nat) (go : α → State) :
    s.orMemoryFault i (.error a) go = .next (haltedIn i s .memoryFault (some a)) := rfl

/-- All that an instruction with an access can answer. -/
theorem State.orMemoryFault_next {α : Type} {s t : State} {i : Instr} {access : Except Nat α} {go : α → State}
    (h : s.orMemoryFault i access go = .next t) :
    (∃ x, access = .ok x ∧ t = go x) ∨ (∃ a, access = .error a ∧ t = haltedIn i s .memoryFault (some a)) := by
  cases access with
  | ok x => exact .inl ⟨x, rfl, (Host.Outcome.next.inj h).symm⟩
  | error a => exact .inr ⟨a, rfl, (Host.Outcome.next.inj h).symm⟩

/-! The fetch. -/

/-- The fetch inside memory. -/
theorem State.fetch_ok {s : State} (h : s.pc.toNat + 1 < 4096) :
    s.fetch = .ok (wordOfBytes (s.byteAt s.pc.toNat) (s.byteAt (s.pc.toNat + 1))) := by
  have h1 : ¬ 4096 ≤ s.pc.toNat := by omega
  have h2 : ¬ 4096 ≤ s.pc.toNat + 1 := by omega
  simp [State.fetch, Memory.memRead, h1, h2, State.byteAt]

/-- The fetch that leaves memory faults at the first address outside. -/
theorem State.fetch_error {s : State} (h : 4096 ≤ s.pc.toNat + 1) : s.fetch = .error (max s.pc.toNat 4096) := by
  by_cases h1 : 4096 ≤ s.pc.toNat
  · simp [State.fetch, Memory.memRead, h1]
  · have : s.pc.toNat = 4095 := by omega
    simp [State.fetch, Memory.memRead, this]

/-! Flag writeback and register ranges. -/

/-- VF ends with the flag, `V[x]` with the result unless x is 0xF. -/
@[simp] theorem State.setResultFlag_V (s : State) (x r : Nibble) (b f : Byte) :
    (s.setResultFlag x b f).V r = if r = vF then f else if r = x then b else s.V r := by
  simp [State.setResultFlag]

/-- Setting a run of registers writes V[j], V[j+1], ... and no other. -/
theorem State.setRegsFrom_V (s : State) (j : Nat) (bs : List Byte) (h : j + bs.length ≤ 16) (r : Nibble) :
    (s.setRegsFrom j bs).V r = if j ≤ r.toNat then (bs[r.toNat - j]?).getD (s.V r) else s.V r := by
  induction bs generalizing s j with
  | nil => simp [State.setRegsFrom]
  | cons b bs ih =>
    have hl : j + (bs.length + 1) ≤ 16 := by simpa using h
    have hj : (BitVec.ofNat 4 j).toNat = j := by simp; omega
    rw [State.setRegsFrom, ih _ _ (by omega), State.setV_V]
    have hr : r = BitVec.ofNat 4 j ↔ r.toNat = j := by
      rw [← BitVec.toNat_inj, hj]
    simp only [hr]
    rcases Nat.lt_trichotomy r.toNat j with hc | hc | hc
    · have e1 : ¬ j + 1 ≤ r.toNat := by omega
      have e2 : ¬ j ≤ r.toNat := by omega
      have e3 : r.toNat ≠ j := by omega
      simp [e1, e2, e3]
    · simp [hc]
    · have e1 : j + 1 ≤ r.toNat := by omega
      have e2 : j ≤ r.toNat := by omega
      have e3 : r.toNat - j = (r.toNat - (j + 1)) + 1 := by omega
      have e4 : r.toNat ≠ j := by omega
      simp [e1, e2, e3, e4]

/-- Setting a run of registers changes the register file alone. -/
theorem State.setRegsFrom_frame (s : State) (j : Nat) (bs : List Byte) :
    s.setRegsFrom j bs = { s with v := (s.setRegsFrom j bs).v } := by
  induction bs generalizing s j with
  | nil => rfl
  | cons b bs ih =>
    rw [State.setRegsFrom, ih]
    rfl

@[simp] theorem State.regRange_length (s : State) (x : Nibble) : (s.regRange x).length = x.toNat + 1 := by
  simp [State.regRange, rangeCount]

/-- The k-th value of V0 to Vx is V[k]. -/
theorem State.regRange_getElem? (s : State) (x : Nibble) {k : Nat} (h : k ≤ x.toNat) :
    (s.regRange x)[k]? = some (s.V (BitVec.ofNat 4 k)) := by
  have : k < x.toNat + 1 := by omega
  simp [State.regRange, rangeCount, this]

@[simp] theorem bcdDigits_length (b : Byte) : (bcdDigits b).length = 3 := rfl

/-! Timers, keys, load. -/

/-- A timer counts down to 0 and stays there. -/
theorem countDown_toNat (b : Byte) : (countDown b).toNat = b.toNat - 1 := by
  unfold countDown
  split
  · have := b.isLt
    simp [BitVec.toNat_sub]; omega
  · omega

/-- A ROM that fits is loaded: memory is canonical, holds the ROM from 0x200 and its boot content elsewhere. -/
theorem loadMemory_ok {rom : List Byte} (h : rom.length ≤ 3584) :
    ∃ m, loadMemory rom = .ok m ∧ Memory.wf m = true ∧
      ∀ a, Memory.read m a = if 0x200 ≤ a then (rom[a - 0x200]?).getD (bootByte a) else bootByte a := by
  have h' : ¬ rom.length > 3584 := by omega
  obtain ⟨m, e, w, r⟩ := Memory.writeRun_ok (m := []) (a := 0x200) (bs := rom) Memory.wf_nil
    (.inr (by simp; omega))
  exact ⟨m, by simp [loadMemory, h', e], w, fun a => by simpa [Memory.read] using r a⟩

/-- A ROM that does not fit is rejected with its length. -/
theorem loadMemory_error {rom : List Byte} (h : 3584 < rom.length) : loadMemory rom = .error rom.length := by
  simp [loadMemory, h]

/-- All that a load can answer. -/
theorem load_cases (rom : List Byte) :
    (rom.length ≤ 3584 ∧ ∃ m, loadMemory rom = .ok m ∧ Memory.wf m = true ∧ load rom = .next (State.reset.setMem m)) ∨
    (3584 < rom.length ∧ load rom = .fault (.loadError rom.length)) := by
  by_cases h : rom.length ≤ 3584
  · obtain ⟨m, e, w, _⟩ := loadMemory_ok h
    exact .inl ⟨h, m, e, w, by simp [load, e]⟩
  · exact .inr ⟨by omega, by simp [load, loadMemory_error (by omega : 3584 < rom.length)]⟩

/-- A tick changes the timers alone. -/
theorem State.tick_eq (s : State) :
    s.tick = s ∨ s.tick = (s.setDt (countDown s.dt)).setSt (countDown s.st) := by
  unfold State.tick
  cases s.run <;> simp

/-- All that a key change can do. -/
theorem State.setKey_cases (s : State) (k : Nibble) (p : Bool) :
    (∃ e, s.run = .halted e ∧ s.setKey k p = s) ∨
    (∃ x, s.run = .blockedOnKey x ∧ p = true ∧ s.isPressed k = false ∧ s.setKey k p = s.completeKeyWait x k) ∨
    (s.setKey k p = s.setKeyLevel k p ∧ ∀ e, s.run ≠ .halted e) := by
  unfold State.setKey
  cases hr : s.run with
  | running => exact .inr (.inr ⟨rfl, by simp⟩)
  | halted e => exact .inl ⟨e, rfl, rfl⟩
  | blockedOnKey x =>
    by_cases h : p = true ∧ s.isPressed k = false
    · exact .inr (.inl ⟨x, rfl, h.1, h.2, by simp [h]⟩)
    · refine .inr (.inr ⟨?_, by simp⟩)
      cases p <;> simp_all

end Sys2Proof.Machine
end

