-- ==== Sys2Proof/Laws/Draw.lean ====
section
/-! SUPPORT. The XOR-blitter: the loop over rows and columns toggles exactly the covered pixels (44_display.md R180). -/

namespace Sys2Proof.Machine

/-- A pixel as an XOR of what it was and whether it is hit. -/
def toggled (old new : Bool) (hit : Prop) : Prop := (hit → new = !old) ∧ (¬ hit → new = old)

theorem toggled.trans {a b c : Bool} {p q r : Prop} (h1 : toggled a b p) (h2 : toggled b c q)
    (hpq : ¬ (p ∧ q)) (hr : r ↔ p ∨ q) : toggled a c r := by
  by_cases hp : p <;> by_cases hq : q <;> simp_all [toggled]

/-- The columns of `cs` that a row byte hits. -/
def rowHits (b : Byte) (x0 : Nat) (cs : List Nat) (c : Fin 64) : Prop :=
  ∃ j ∈ cs, (c : Nat) = x0 + j ∧ b.getLsbD (7 - j) = true

/-- One sprite pixel. -/
theorem Blit.bit_spec (b : Byte) (row : Fin 32) (x0 j : Nat) (d : Blit) (r : Fin 32) (c : Fin 64) :
    toggled (Framebuffer.pixel d.fb r c) (Framebuffer.pixel (Blit.bit b row x0 d j).fb r c)
      (r = row ∧ rowHits b x0 [j] c) := by
  unfold Blit.bit toggled rowHits
  by_cases hb : b.getLsbD (7 - j) = true
  · by_cases h : x0 + j < 64
    · by_cases hr : r = row
      · by_cases hc : (c : Nat) = x0 + j
        · have hc' : c = ⟨x0 + j, h⟩ := Fin.ext hc
          subst hr; subst hc'
          simp [hb, h, Blit.toggle]
        · have hc' : c ≠ ⟨x0 + j, h⟩ := fun e => hc (congrArg Fin.val e)
          simp [hb, h, hc, hc', Blit.toggle]
      · simp [hb, h, hr, Blit.toggle]
    · have hc : (c : Nat) ≠ x0 + j := by omega
      simp [hb, h, hc]
  · simp [hb]

theorem Blit.bit_collision (b : Byte) (row : Fin 32) (x0 j : Nat) (d : Blit) :
    (Blit.bit b row x0 d j).collision = true ↔
      d.collision = true ∨ ∃ c, rowHits b x0 [j] c ∧ Framebuffer.pixel d.fb row c = true := by
  unfold Blit.bit rowHits
  by_cases hb : b.getLsbD (7 - j) = true
  · by_cases h : x0 + j < 64
    · simp only [hb, h, if_true, dif_pos, Blit.toggle, Bool.or_eq_true]
      constructor
      · rintro (h1 | h1)
        · exact .inl h1
        · exact .inr ⟨⟨x0 + j, h⟩, ⟨j, by simp, rfl, hb⟩, h1⟩
      · rintro (h1 | ⟨c, ⟨j', hj, hc, _⟩, h1⟩)
        · exact .inl h1
        · have : j' = j := by simpa using hj
          subst this
          have : c = ⟨x0 + j', h⟩ := Fin.ext hc
          exact .inr (this ▸ h1)
    · have : ∀ c : Fin 64, (c : Nat) ≠ x0 + j := fun c => by omega
      simp [hb, h, this]
  · simp [hb]

/-- A row byte over a list of distinct columns. -/
theorem Blit.fold_spec (b : Byte) (row : Fin 32) (x0 : Nat) (cs : List Nat) (hcs : cs.Nodup) (d : Blit) :
    (∀ r c, toggled (Framebuffer.pixel d.fb r c) (Framebuffer.pixel (cs.foldl (Blit.bit b row x0) d).fb r c)
      (r = row ∧ rowHits b x0 cs c)) ∧
    ((cs.foldl (Blit.bit b row x0) d).collision = true ↔
      d.collision = true ∨ ∃ c, rowHits b x0 cs c ∧ Framebuffer.pixel d.fb row c = true) := by
  induction cs generalizing d with
  | nil => simp [toggled, rowHits]
  | cons j cs ih =>
    obtain ⟨hj, hcs⟩ := List.nodup_cons.mp hcs
    obtain ⟨ihp, ihc⟩ := ih hcs (Blit.bit b row x0 d j)
    have split : ∀ c, rowHits b x0 (j :: cs) c ↔ rowHits b x0 [j] c ∨ rowHits b x0 cs c := by
      intro c; simp [rowHits, or_and_right, exists_or]
    have disj : ∀ c, ¬ (rowHits b x0 [j] c ∧ rowHits b x0 cs c) := by
      rintro c ⟨⟨j1, h1, e1, _⟩, ⟨j2, h2, e2, _⟩⟩
      have h1 : j1 = j := by simpa using h1
      have : j2 = j := by omega
      exact hj (this ▸ h2)
    refine ⟨fun r c => ?_, ?_⟩
    · refine (Blit.bit_spec b row x0 j d r c).trans (ihp r c) ?_ ?_
      · exact fun h => disj c ⟨h.1.2, h.2.2⟩
      · rw [split]; tauto
    · rw [List.foldl_cons, ihc, Blit.bit_collision, or_assoc, ← exists_or]
      refine or_congr Iff.rfl (exists_congr fun c => ?_)
      rw [split]
      have hb := Blit.bit_spec b row x0 j d row c
      by_cases h1 : rowHits b x0 [j] c
      · have h2 : ¬ rowHits b x0 cs c := fun h => disj c ⟨h1, h⟩
        simp only [h1, h2, true_and, false_and, or_false]
      · have := hb.2 (by simp [h1])
        simp [h1, this]

/-- The pixels that row bytes from framebuffer row `y` down hit. -/
def rowsHit (x0 y : Nat) (bs : List Byte) (r : Fin 32) (c : Fin 64) : Prop :=
  ∃ k, ∃ b, bs[k]? = some b ∧ (r : Nat) = (y + k) % 32 ∧ rowHits b x0 (List.range 8) c

theorem rowsHit_cons (x0 y : Nat) (b : Byte) (bs : List Byte) (r : Fin 32) (c : Fin 64) :
    rowsHit x0 y (b :: bs) r c ↔
      (r = Fin.ofNat 32 y ∧ rowHits b x0 (List.range 8) c) ∨ rowsHit x0 (y + 1) bs r c := by
  constructor
  · rintro ⟨k, b', hb, hr, hc⟩
    cases k with
    | zero =>
      have : b = b' := by simpa using hb
      subst this
      exact .inl ⟨Fin.ext (by simpa [Fin.ofNat] using hr), hc⟩
    | succ k => exact .inr ⟨k, b', by simpa using hb, by rw [hr]; congr 1; omega, hc⟩
  · rintro (⟨hr, hc⟩ | ⟨k, b', hb, hr, hc⟩)
    · exact ⟨0, b, by simp, by simp [hr, Fin.ofNat], hc⟩
    · exact ⟨k + 1, b', by simpa using hb, by rw [hr]; congr 1; omega, hc⟩

/-- The rows of a sprite of at most 32 rows. -/
theorem Blit.rows_spec (x0 y : Nat) (bs : List Byte) (h : bs.length ≤ 32) (d : Blit) :
    (∀ r c, toggled (Framebuffer.pixel d.fb r c) (Framebuffer.pixel (Blit.rows x0 y bs d).fb r c)
      (rowsHit x0 y bs r c)) ∧
    ((Blit.rows x0 y bs d).collision = true ↔
      d.collision = true ∨ ∃ r c, rowsHit x0 y bs r c ∧ Framebuffer.pixel d.fb r c = true) := by
  induction bs generalizing y d with
  | nil => simp [Blit.rows, toggled, rowsHit]
  | cons b bs ih =>
    have hl : bs.length + 1 ≤ 32 := by simpa using h
    obtain ⟨ihp, ihc⟩ := ih (y + 1) (by omega) (Blit.row b (Fin.ofNat 32 y) x0 d)
    obtain ⟨rp, rc⟩ := Blit.fold_spec b (Fin.ofNat 32 y) x0 (List.range 8) List.nodup_range d
    have disj : ∀ r c, ¬ ((r = Fin.ofNat 32 y ∧ rowHits b x0 (List.range 8) c) ∧ rowsHit x0 (y + 1) bs r c) := by
      rintro r c ⟨⟨hr, _⟩, ⟨k, b', hb, hr', _⟩⟩
      have hk : k < bs.length := (List.getElem?_eq_some_iff.mp hb).1
      have : (r : Nat) = y % 32 := by simp [hr, Fin.ofNat]
      omega
    refine ⟨fun r c => ?_, ?_⟩
    · refine (rp r c).trans (ihp r c) (disj r c) (rowsHit_cons x0 y b bs r c)
    · rw [Blit.rows, ihc]
      change _ ∨ (∃ r c, rowsHit x0 (y + 1) bs r c ∧
        Framebuffer.pixel ((List.range 8).foldl (Blit.bit b (Fin.ofNat 32 y) x0) d).fb r c = true) ↔ _
      unfold Blit.row
      rw [rc, or_assoc]
      refine or_congr Iff.rfl ⟨?_, ?_⟩
      · rintro (⟨c, hc, hp⟩ | ⟨r, c, hh, hp⟩)
        · exact ⟨_, c, (rowsHit_cons ..).mpr (.inl ⟨rfl, hc⟩), hp⟩
        · have hn : ¬ (r = Fin.ofNat 32 y ∧ rowHits b x0 (List.range 8) c) := fun h1 => disj r c ⟨h1, hh⟩
          rw [(rp r c).2 hn] at hp
          exact ⟨r, c, (rowsHit_cons ..).mpr (.inr hh), hp⟩
      · rintro ⟨r, c, hh, hp⟩
        rcases (rowsHit_cons ..).mp hh with h1 | h1
        · exact .inl ⟨c, h1.2, h1.1 ▸ hp⟩
        · have hn : ¬ (r = Fin.ofNat 32 y ∧ rowHits b x0 (List.range 8) c) := fun h2 => disj r c ⟨h2, h1⟩
          exact .inr ⟨r, c, h1, ((rp r c).2 hn).trans hp⟩

/-- The bytes of a run of reads hit exactly the pixels the sprite covers. -/
theorem rowsHit_iff_Covers (x0 y0 n : Nat) (f : Nat → Byte) (r : Fin 32) (c : Fin 64) :
    rowsHit x0 y0 ((List.range n).map f) r c ↔ Covers x0 y0 n f r c := by
  constructor
  · rintro ⟨k, b, hb, hr, ⟨j, hj, hc, ht⟩⟩
    obtain ⟨k', hk, e⟩ : ∃ k', (List.range n)[k]? = some k' ∧ f k' = b := by simpa using hb
    obtain ⟨hlt, rfl⟩ : k < n ∧ k = k' := by
      have := List.getElem?_eq_some_iff.mp hk
      simpa using this
    subst e
    exact ⟨k, j, hlt, by simpa using hj, hr, hc, ht⟩
  · rintro ⟨k, j, hk, hj, hr, hc, ht⟩
    exact ⟨k, f k, by simp [hk], hr, ⟨j, by simpa using hj, hc, ht⟩⟩

/-- The whole draw: covered pixels are toggled, the others are not, and a collision is a covered pixel that was on. -/
theorem drawSprite_spec (fb : Framebuffer) (x0 y0 n : Nat) (f : Nat → Byte) (h : n ≤ 32) :
    (∀ r c, toggled (Framebuffer.pixel fb r c)
      (Framebuffer.pixel (drawSprite fb x0 y0 ((List.range n).map f)).fb r c) (Covers x0 y0 n f r c)) ∧
    ((drawSprite fb x0 y0 ((List.range n).map f)).collision = true ↔
      ∃ r c, Covers x0 y0 n f r c ∧ Framebuffer.pixel fb r c = true) := by
  have := Blit.rows_spec x0 y0 ((List.range n).map f) (by simpa using h) { fb := fb, collision := false }
  simpa [drawSprite, rowsHit_iff_Covers] using this

end Sys2Proof.Machine
end

