-- ==== Sys2Proof/Laws/PerInstr.lean ====
section
/-! SUPPORT. Statements about every instruction as syntax, one lemma per constructor. Family EncodingRow: the word of an
instruction matches its own row of spec/opcode_table.json. -/

namespace Sys2Proof.Laws.EncodingRow

/-- The mask of an instruction's row of the opcode table. -/
def rowMask : Instr → Word
  | .cls => 0xFFFF#16
  | .ret => 0xFFFF#16
  | .sys _ => 0xF000#16
  | .jp _ => 0xF000#16
  | .call _ => 0xF000#16
  | .seImm _ _ => 0xF000#16
  | .sneImm _ _ => 0xF000#16
  | .seReg _ _ => 0xF00F#16
  | .ldImm _ _ => 0xF000#16
  | .addImm _ _ => 0xF000#16
  | .ldReg _ _ => 0xF00F#16
  | .or _ _ => 0xF00F#16
  | .and _ _ => 0xF00F#16
  | .xor _ _ => 0xF00F#16
  | .add _ _ => 0xF00F#16
  | .sub _ _ => 0xF00F#16
  | .shr _ _ => 0xF00F#16
  | .subn _ _ => 0xF00F#16
  | .shl _ _ => 0xF00F#16
  | .sneReg _ _ => 0xF00F#16
  | .ldI _ => 0xF000#16
  | .jpV0 _ => 0xF000#16
  | .rnd _ _ => 0xF000#16
  | .drw _ _ _ => 0xF000#16
  | .skp _ => 0xF0FF#16
  | .sknp _ => 0xF0FF#16
  | .ldVxDt _ => 0xF0FF#16
  | .ldVxK _ => 0xF0FF#16
  | .ldDt _ => 0xF0FF#16
  | .ldSt _ => 0xF0FF#16
  | .addI _ => 0xF0FF#16
  | .ldF _ => 0xF0FF#16
  | .ldB _ => 0xF0FF#16
  | .storeRegs _ => 0xF0FF#16
  | .loadRegs _ => 0xF0FF#16

/-- The match value of an instruction's row of the opcode table. -/
def rowMatch : Instr → Word
  | .cls => 0x00E0#16
  | .ret => 0x00EE#16
  | .sys _ => 0x0000#16
  | .jp _ => 0x1000#16
  | .call _ => 0x2000#16
  | .seImm _ _ => 0x3000#16
  | .sneImm _ _ => 0x4000#16
  | .seReg _ _ => 0x5000#16
  | .ldImm _ _ => 0x6000#16
  | .addImm _ _ => 0x7000#16
  | .ldReg _ _ => 0x8000#16
  | .or _ _ => 0x8001#16
  | .and _ _ => 0x8002#16
  | .xor _ _ => 0x8003#16
  | .add _ _ => 0x8004#16
  | .sub _ _ => 0x8005#16
  | .shr _ _ => 0x8006#16
  | .subn _ _ => 0x8007#16
  | .shl _ _ => 0x800E#16
  | .sneReg _ _ => 0x9000#16
  | .ldI _ => 0xA000#16
  | .jpV0 _ => 0xB000#16
  | .rnd _ _ => 0xC000#16
  | .drw _ _ _ => 0xD000#16
  | .skp _ => 0xE09E#16
  | .sknp _ => 0xE0A1#16
  | .ldVxDt _ => 0xF007#16
  | .ldVxK _ => 0xF00A#16
  | .ldDt _ => 0xF015#16
  | .ldSt _ => 0xF018#16
  | .addI _ => 0xF01E#16
  | .ldF _ => 0xF029#16
  | .ldB _ => 0xF033#16
  | .storeRegs _ => 0xF055#16
  | .loadRegs _ => 0xF065#16

/-- The word of the instruction, under its row's mask, is its row's match value. -/
def Statement (i : Instr) : Prop := encode i &&& rowMask i = rowMatch i

theorem mask_NNN (op : Nibble) (nnn : Addr12) : wordNNN op nnn &&& 0xF000#16 = wordNNN op 0 := by
  apply BitVec.eq_of_getLsbD_eq; intro i hi
  rw [BitVec.getLsbD_and, getLsbD_wordNNN, getLsbD_wordNNN]
  interval_cases i <;> simp

theorem mask_XNN (op x : Nibble) (nn : Byte) : wordXNN op x nn &&& 0xF000#16 = wordXNN op 0 0 := by
  apply BitVec.eq_of_getLsbD_eq; intro i hi
  rw [BitVec.getLsbD_and, getLsbD_wordXNN, getLsbD_wordXNN]
  interval_cases i <;> simp

theorem mask_X (op x : Nibble) (nn : Byte) : wordXNN op x nn &&& 0xF0FF#16 = wordXNN op 0 nn := by
  apply BitVec.eq_of_getLsbD_eq; intro i hi
  rw [BitVec.getLsbD_and, getLsbD_wordXNN, getLsbD_wordXNN]
  interval_cases i <;> simp

theorem mask_XY (op x y f : Nibble) : wordXYN op x y f &&& 0xF00F#16 = wordXYN op 0 0 f := by
  apply BitVec.eq_of_getLsbD_eq; intro i hi
  rw [BitVec.getLsbD_and, getLsbD_wordXYN, getLsbD_wordXYN]
  interval_cases i <;> simp

theorem mask_XYN (op x y n : Nibble) : wordXYN op x y n &&& 0xF000#16 = wordXYN op 0 0 0 := by
  apply BitVec.eq_of_getLsbD_eq; intro i hi
  rw [BitVec.getLsbD_and, getLsbD_wordXYN, getLsbD_wordXYN]
  interval_cases i <;> simp

theorem cls : Statement .cls := rfl
theorem ret : Statement .ret := rfl
theorem sys (nnn : Addr12) : Statement (.sys nnn) := (mask_NNN _ _).trans rfl
theorem jp (nnn : Addr12) : Statement (.jp nnn) := (mask_NNN _ _).trans rfl
theorem call (nnn : Addr12) : Statement (.call nnn) := (mask_NNN _ _).trans rfl
theorem seImm (x : Nibble) (nn : Byte) : Statement (.seImm x nn) := (mask_XNN _ _ _).trans rfl
theorem sneImm (x : Nibble) (nn : Byte) : Statement (.sneImm x nn) := (mask_XNN _ _ _).trans rfl
theorem seReg (x : Nibble) (y : Nibble) : Statement (.seReg x y) := (mask_XY _ _ _ _).trans rfl
theorem ldImm (x : Nibble) (nn : Byte) : Statement (.ldImm x nn) := (mask_XNN _ _ _).trans rfl
theorem addImm (x : Nibble) (nn : Byte) : Statement (.addImm x nn) := (mask_XNN _ _ _).trans rfl
theorem ldReg (x : Nibble) (y : Nibble) : Statement (.ldReg x y) := (mask_XY _ _ _ _).trans rfl
theorem or (x : Nibble) (y : Nibble) : Statement (.or x y) := (mask_XY _ _ _ _).trans rfl
theorem and (x : Nibble) (y : Nibble) : Statement (.and x y) := (mask_XY _ _ _ _).trans rfl
theorem xor (x : Nibble) (y : Nibble) : Statement (.xor x y) := (mask_XY _ _ _ _).trans rfl
theorem add (x : Nibble) (y : Nibble) : Statement (.add x y) := (mask_XY _ _ _ _).trans rfl
theorem sub (x : Nibble) (y : Nibble) : Statement (.sub x y) := (mask_XY _ _ _ _).trans rfl
theorem shr (x : Nibble) (y : Nibble) : Statement (.shr x y) := (mask_XY _ _ _ _).trans rfl
theorem subn (x : Nibble) (y : Nibble) : Statement (.subn x y) := (mask_XY _ _ _ _).trans rfl
theorem shl (x : Nibble) (y : Nibble) : Statement (.shl x y) := (mask_XY _ _ _ _).trans rfl
theorem sneReg (x : Nibble) (y : Nibble) : Statement (.sneReg x y) := (mask_XY _ _ _ _).trans rfl
theorem ldI (nnn : Addr12) : Statement (.ldI nnn) := (mask_NNN _ _).trans rfl
theorem jpV0 (nnn : Addr12) : Statement (.jpV0 nnn) := (mask_NNN _ _).trans rfl
theorem rnd (x : Nibble) (nn : Byte) : Statement (.rnd x nn) := (mask_XNN _ _ _).trans rfl
theorem drw (x : Nibble) (y : Nibble) (n : Nibble) : Statement (.drw x y n) := (mask_XYN _ _ _ _).trans rfl
theorem skp (x : Nibble) : Statement (.skp x) := (mask_X _ _ _).trans rfl
theorem sknp (x : Nibble) : Statement (.sknp x) := (mask_X _ _ _).trans rfl
theorem ldVxDt (x : Nibble) : Statement (.ldVxDt x) := (mask_X _ _ _).trans rfl
theorem ldVxK (x : Nibble) : Statement (.ldVxK x) := (mask_X _ _ _).trans rfl
theorem ldDt (x : Nibble) : Statement (.ldDt x) := (mask_X _ _ _).trans rfl
theorem ldSt (x : Nibble) : Statement (.ldSt x) := (mask_X _ _ _).trans rfl
theorem addI (x : Nibble) : Statement (.addI x) := (mask_X _ _ _).trans rfl
theorem ldF (x : Nibble) : Statement (.ldF x) := (mask_X _ _ _).trans rfl
theorem ldB (x : Nibble) : Statement (.ldB x) := (mask_X _ _ _).trans rfl
theorem storeRegs (x : Nibble) : Statement (.storeRegs x) := (mask_X _ _ _).trans rfl
theorem loadRegs (x : Nibble) : Statement (.loadRegs x) := (mask_X _ _ _).trans rfl

end Sys2Proof.Laws.EncodingRow
end

