-- ==== Sys2Proof/Tests/Slice0.lean ====
section
/-! SUPPORT. The model's own tests. Expected results are the vectors of 95_test_vectors.md (AL4, CF3, ... in the names and
comments) or words written out from 30_encoding.md R75; a `test_witness_` theorem shows that the hypotheses of an obligation,
and of each of its clauses, can be met, at the boundary of their ranges. -/

open Sys2Proof Sys2Proof.Machine

namespace Sys2Proof.Tests

/-! ## Helpers -/

/-- The boot state with the listed registers set. -/
def boot (regs : List (Nibble × Byte)) : State := regs.foldl (fun s r => s.setV r.1 r.2) State.reset

/-- What `f` reads in the state one step after the word `w` was put where the next fetch takes it. -/
def after {α : Type} (w : Nat) (s : State) (f : State → α) : Option α :=
  match step (s.withFetchWord 16 w) with
  | .next t => some (f t)
  | .fault _ => none
  | .refused _ => none

/-- What `f` reads after a host action. -/
def acted {α : Type} (a : HostAction) (s : State) (f : State → α) : Option α :=
  match perform a s with
  | .next t => some (f t)
  | .fault _ => none
  | .refused _ => none

/-- The state an outcome holds, or the boot state. -/
def stateOf (r : Result) : State :=
  match r with
  | .next t => t
  | .fault _ => State.reset
  | .refused _ => State.reset

/-- An error record with the pc of the vectors, 0x200. -/
def err (code : ErrorCode) (opcode : Word) (info : Option Nat) : Run :=
  .halted { code := code, pc := 0x200#16, opcode := some opcode, info := info }

/-- The lit pixels of a framebuffer, as (column, row), row by row. -/
def lit (s : State) : List (Nat × Nat) :=
  (List.finRange 32).flatMap fun r => ((List.finRange 64).filter fun c => s.pixel r c).map fun c => (c.val, r.val)

/-- Boot with the listed bytes at 0x300. -/
def at300 (bytes : List Byte) : State :=
  match Memory.writeRun [] 0x300 bytes with
  | .ok m => State.reset.setMem m
  | .error _ => State.reset

/-! ## WellFormed -/

theorem test_sys_of_cls_word_is_ill_formed : (Instr.sys 0x0E0#12).wellFormed = false := by decide
theorem test_sys_of_ret_word_is_ill_formed : (Instr.sys 0x0EE#12).wellFormed = false := by decide
theorem test_sys_beside_them_is_well_formed :
    (Instr.sys 0x0E1#12).wellFormed = true ∧ (Instr.sys 0x0EF#12).wellFormed = true := by decide

/-! ## Decode: words written out from 30_encoding.md R75 -/

theorem test_decode_group0 : decodeWord 0b0000000011100000#16 = some .cls ∧ decodeWord 0b0000000011101110#16 = some .ret ∧
    decodeWord 0b0000000011100001#16 = some (.sys 0x0E1#12) ∧ decodeWord 0b0000111111101110#16 = some (.sys 0xFEE#12) := by
  decide
theorem test_decode_jumps : decodeWord 0b0001101010111100#16 = some (.jp 0xABC#12) ∧
    decodeWord 0b0010010000000000#16 = some (.call 0x400#12) ∧ decodeWord 0b1011001100000000#16 = some (.jpV0 0x300#12) := by
  decide
theorem test_decode_skips : decodeWord 0b0011001101000010#16 = some (.seImm 0x3#4 0x42#8) ∧
    decodeWord 0b0100001101000010#16 = some (.sneImm 0x3#4 0x42#8) ∧
    decodeWord 0b0101000100100000#16 = some (.seReg 0x1#4 0x2#4) ∧
    decodeWord 0b1001000100100000#16 = some (.sneReg 0x1#4 0x2#4) := by decide
theorem test_decode_immediates : decodeWord 0b0110101001111111#16 = some (.ldImm 0xA#4 0x7F#8) ∧
    decodeWord 0b0111000100000010#16 = some (.addImm 0x1#4 0x02#8) ∧
    decodeWord 0b1100001100001111#16 = some (.rnd 0x3#4 0x0F#8) ∧
    decodeWord 0b1010000100100011#16 = some (.ldI 0x123#12) := by decide
theorem test_decode_group8_low : decodeWord 0b1000000100100000#16 = some (.ldReg 0x1#4 0x2#4) ∧
    decodeWord 0b1000000100100001#16 = some (.or 0x1#4 0x2#4) ∧ decodeWord 0b1000000100100010#16 = some (.and 0x1#4 0x2#4) ∧
    decodeWord 0b1000000100100011#16 = some (.xor 0x1#4 0x2#4) ∧ decodeWord 0b1000000100100100#16 = some (.add 0x1#4 0x2#4) := by
  decide
theorem test_decode_group8_high : decodeWord 0b1000000100100101#16 = some (.sub 0x1#4 0x2#4) ∧
    decodeWord 0b1000000100100110#16 = some (.shr 0x1#4 0x2#4) ∧ decodeWord 0b1000000100100111#16 = some (.subn 0x1#4 0x2#4) ∧
    decodeWord 0b1000000100101110#16 = some (.shl 0x1#4 0x2#4) := by decide
theorem test_decode_draw_and_keys : decodeWord 0b1101000000010101#16 = some (.drw 0x0#4 0x1#4 0x5#4) ∧
    decodeWord 0b1110000110011110#16 = some (.skp 0x1#4) ∧ decodeWord 0b1110000110100001#16 = some (.sknp 0x1#4) := by decide
theorem test_decode_groupF_timers : decodeWord 0b1111001000000111#16 = some (.ldVxDt 0x2#4) ∧
    decodeWord 0b1111001100001010#16 = some (.ldVxK 0x3#4) ∧ decodeWord 0b1111001000010101#16 = some (.ldDt 0x2#4) ∧
    decodeWord 0b1111001000011000#16 = some (.ldSt 0x2#4) := by decide
theorem test_decode_groupF_index : decodeWord 0b1111000100011110#16 = some (.addI 0x1#4) ∧
    decodeWord 0b1111010000101001#16 = some (.ldF 0x4#4) ∧ decodeWord 0b1111010100110011#16 = some (.ldB 0x5#4) ∧
    decodeWord 0b1111001001010101#16 = some (.storeRegs 0x2#4) ∧
    decodeWord 0b1111001101100101#16 = some (.loadRegs 0x3#4) := by decide
/-- FD5 to FD9. -/
theorem test_decode_illegal : decodeWord 0x5121#16 = none ∧ decodeWord 0x9AB7#16 = none ∧ decodeWord 0x8128#16 = none ∧
    decodeWord 0x812F#16 = none ∧ decodeWord 0xE19F#16 = none ∧ decodeWord 0xE0A0#16 = none ∧ decodeWord 0xF000#16 = none ∧
    decodeWord 0xF1FF#16 = none ∧ decodeWord 0xF108#16 = none := by decide
theorem test_decode_bytes : decode [0x12, 0x34, 0x56] = .ok (.jp 0x234#12, [0x56]) ∧
    decode [0x81, 0x28] = .error (.illegalWord 0x8128#16) ∧ decode [0x12] = .error .truncated := by decide
theorem test_decode_table_word : decodeTableWord 16 0x00EE = some .ret ∧ decodeTableWord 16 0x8128 = none := by decide

/-! ## The cycle -/

/-- FD1: the fetch is big-endian. -/
theorem test_fetch_big_endian : after 0x1234 (State.reset.setPc 0x300) State.pc = some 0x234 := by decide
/-- FD10: the first step from reset, the empty ROM. -/
theorem test_first_step_of_reset : (stateOf (step State.reset)).run = err .sysUnsupported 0x0000 none := by decide
/-- FD5. -/
theorem test_illegal_word : after 0x5121 State.reset State.run = some (err .decodeError 0x5121 none) := by decide
/-- FD3: no opcode is recorded. -/
theorem test_fetch_fault : (stateOf (step (State.reset.setPc 0xFFF))).run =
    .halted { code := .memoryFault, pc := 0xFFF, opcode := none, info := some 0x1000 } := by decide

/-! ## Control flow -/

/-- CF1. -/
theorem test_jp : after 0x1ABC State.reset State.pc = some 0xABC := by decide
/-- CF3. -/
theorem test_call : after 0x2400 State.reset (fun t => (t.slot 0, t.sp, t.pc)) = some (0x202, 1, 0x400) := by decide
/-- CF4. -/
theorem test_call_overflow :
    after 0x2400 (State.reset.setSp 16) (fun t => (t.run, t.sp)) = some (err .stackOverflow 0x2400 none, 16) := by decide
/-- CF5. -/
theorem test_ret : after 0x00EE (((State.reset.setSp 1).setSlot 0 0x202).setPc 0x300) (fun t => (t.sp, t.pc, t.slot 0)) =
    some (0, 0x202, 0x202) := by decide
/-- CF6. -/
theorem test_ret_underflow : after 0x00EE State.reset State.run = some (err .stackUnderflow 0x00EE none) := by decide
/-- CF7. -/
theorem test_sys : after 0x0123 State.reset State.run = some (err .sysUnsupported 0x0123 none) := by decide
/-- CF8. -/
theorem test_se_imm : after 0x3342 (boot [(3, 0x42)]) State.pc = some 0x204 ∧
    after 0x3343 (boot [(3, 0x42)]) State.pc = some 0x202 := by decide
/-- CF9. -/
theorem test_sne_imm : after 0x4342 (boot [(3, 0x42)]) State.pc = some 0x202 ∧
    after 0x4300 (boot [(3, 0x42)]) State.pc = some 0x204 := by decide
/-- CF10, CF11. -/
theorem test_se_reg : after 0x5120 (boot [(1, 7), (2, 7)]) State.pc = some 0x204 ∧
    after 0x5120 (boot [(1, 7), (2, 8)]) State.pc = some 0x202 := by decide
/-- CF11, CF12. -/
theorem test_sne_reg : after 0x9120 (boot [(1, 7), (2, 8)]) State.pc = some 0x204 ∧
    after 0x9120 (boot [(1, 7), (2, 7)]) State.pc = some 0x202 := by decide
/-- CF14: the sum is not cut to 12 bits, and the next fetch faults at 0x10FE. -/
theorem test_jp_v0 : after 0xBFFF (boot [(0, 0xFF)]) State.pc = some 0x10FE ∧
    (stateOf (step (State.reset.setPc 0x10FE))).run =
      .halted { code := .memoryFault, pc := 0x10FE, opcode := none, info := some 0x10FE } := by decide
/-- CF15: V0 is added, not V5. -/
theorem test_jp_v0_register : after 0xB500 (boot [(5, 0x40)]) State.pc = some 0x500 := by decide

/-! ## Arithmetic and logic -/

/-- AL1. -/
theorem test_ld_imm : after 0x6A7F State.reset (·.V 0xA) = some 0x7F := by decide
/-- AL2. -/
theorem test_add_imm_wraps : after 0x7102 (boot [(1, 0xFF), (0xF, 0x55)]) (fun t => (t.V 1, t.V 0xF)) = some (0x01, 0x55) := by
  decide
/-- AL3. -/
theorem test_add_imm_to_vf : after 0x7F03 (boot [(0xF, 0xFE)]) (·.V 0xF) = some 0x01 := by decide
/-- AL4. -/
theorem test_ld_reg : after 0x8120 (boot [(2, 0x33)]) (·.V 1) = some 0x33 := by decide
/-- AL5. -/
theorem test_or : after 0x8121 (boot [(1, 0xF0), (2, 0x0F), (0xF, 0x77)]) (fun t => (t.V 1, t.V 0xF)) = some (0xFF, 0x77) := by
  decide
/-- AL5. -/
theorem test_and : after 0x8122 (boot [(1, 0xF0), (2, 0x0F), (0xF, 0x77)]) (fun t => (t.V 1, t.V 0xF)) = some (0x00, 0x77) := by
  decide
/-- AL6. -/
theorem test_xor : after 0x8123 (boot [(1, 0xFF), (2, 0x0F)]) (·.V 1) = some 0xF0 := by decide
/-- AL7, AL8. -/
theorem test_add_carry : after 0x8124 (boot [(1, 0x80), (2, 0x80)]) (fun t => (t.V 1, t.V 0xF)) = some (0x00, 1) ∧
    after 0x8124 (boot [(1, 0x7F), (2, 0x01)]) (fun t => (t.V 1, t.V 0xF)) = some (0x80, 0) := by decide
/-- AL9, AL10: the flag wins, and VF is read before it is written. -/
theorem test_add_vf : after 0x8FE4 (boot [(0xF, 0xFF), (0xE, 0x01)]) (·.V 0xF) = some 1 ∧
    after 0x81F4 (boot [(1, 0x10), (0xF, 0xF0)]) (fun t => (t.V 1, t.V 0xF)) = some (0x00, 1) := by decide
/-- L1-5, L1-6. -/
theorem test_sub : after 0x8125 (boot [(1, 5), (2, 3)]) (fun t => (t.V 1, t.V 0xF)) = some (0x02, 1) ∧
    after 0x8125 (boot [(1, 3), (2, 5)]) (fun t => (t.V 1, t.V 0xF)) = some (0xFE, 0) := by decide
/-- AL11, AL13. -/
theorem test_sub_equal : after 0x8125 (boot [(1, 5), (2, 5)]) (fun t => (t.V 1, t.V 0xF)) = some (0x00, 1) ∧
    after 0x8FE5 (boot [(0xF, 5), (0xE, 5)]) (·.V 0xF) = some 1 := by decide
/-- AL14, AL17. -/
theorem test_shr : after 0x8126 (boot [(1, 0x81), (2, 0xFF)]) (fun t => (t.V 1, t.V 0xF)) = some (0x40, 1) ∧
    after 0x8F06 (boot [(0xF, 0x02)]) (·.V 0xF) = some 0 := by decide
/-- AL19, AL18. -/
theorem test_subn : after 0x8127 (boot [(1, 5), (2, 3)]) (fun t => (t.V 1, t.V 0xF)) = some (0xFE, 0) ∧
    after 0x8127 (boot [(1, 3), (2, 5)]) (fun t => (t.V 1, t.V 0xF)) = some (0x02, 1) := by decide
/-- AL23, AL24. -/
theorem test_shl : after 0x812E (boot [(1, 0x40), (2, 0x01)]) (fun t => (t.V 1, t.V 0xF)) = some (0x80, 0) ∧
    after 0x8F0E (boot [(0xF, 0x80)]) (·.V 0xF) = some 1 := by decide
/-- AL27: the mask 0 leaves no free bit. -/
theorem test_rnd_mask_zero : after 0xC300 (boot [(3, 0x5A)]) (fun t => t.draws) = some 1 ∧
    ∀ b : Byte, b &&& 0x00#8 = 0x00#8 := by decide

/-! ## Index register and memory -/

/-- IM1. -/
theorem test_ld_i : after 0xA123 State.reset State.i = some 0x123 := by decide
/-- IM2, IM3. -/
theorem test_add_i : after 0xF11E ((boot [(1, 0x10)]).setI 0xFFA) (fun t => (t.i, t.V 0xF)) = some (0x100A, 0) ∧
    after 0xF11E ((boot [(1, 0x01)]).setI 0xFFFF) State.i = some 0 := by decide
/-- IM6. -/
theorem test_ld_f : after 0xF429 (boot [(4, 0x0F)]) State.i = some 0x04B := by decide
/-- IM7. -/
theorem test_ld_f_range :
    after 0xF429 (boot [(4, 0x10)]) State.run = some (err .operandRangeError 0xF429 (some 0x10)) := by decide
/-- IM8. -/
theorem test_ld_b : after 0xF533 ((boot [(5, 0x9C)]).setI 0x300) (fun t => [0x300, 0x301, 0x302].map t.byteAt) =
    some [1, 5, 6] := by decide
/-- IM11: no partial write. -/
theorem test_ld_b_fault : after 0xF233 ((boot [(2, 7)]).setI 0xFFE) (fun t => (t.run, t.byteAt 0xFFE, t.byteAt 0xFFF)) =
    some (err .memoryFault 0xF233 (some 0x1000), 0, 0) := by decide
/-- IM12. -/
theorem test_store_regs : after 0xF255 ((boot [(0, 1), (1, 2), (2, 3)]).setI 0x300)
    (fun t => ([0x300, 0x301, 0x302, 0x303].map t.byteAt, t.i)) = some ([1, 2, 3, 0], 0x300) := by decide
/-- IM15. -/
theorem test_store_regs_fault : after 0xF355 ((boot [(0, 1)]).setI 0xFFD) (fun t => (t.run, t.byteAt 0xFFD)) =
    some (err .memoryFault 0xF355 (some 0x1000), 0) := by decide
/-- IM16. -/
theorem test_load_regs : after 0xF365 ((at300 [0xAA, 0xBB, 0xCC, 0xDD, 0xEE]).setI 0x300)
    (fun t => ([0, 1, 2, 3, 4].map t.V, t.i)) = some ([0xAA, 0xBB, 0xCC, 0xDD, 0], 0x300) := by decide
/-- IM4: the lowest address outside memory is I itself. -/
theorem test_load_regs_fault : after 0xF065 (State.reset.setI 0x100A) State.run =
    some (err .memoryFault 0xF065 (some 0x100A)) := by decide

/-! ## Display -/

/-- L1-3, DR1: VF is kept. -/
theorem test_cls : after 0x00E0 ((boot [(0xF, 0x33)]).setFb (Framebuffer.setPixel State.reset.fb 3 5 true))
    (fun t => (t.pixel 3 5, t.V 0xF)) = some (false, 0x33) := by decide
/-- DR11: pixel (0,0) goes off and (1,0) on, with a collision. -/
theorem test_drw_collision : after 0xD001 (State.reset.setFb (Framebuffer.setPixel State.reset.fb 0 0 true))
    (fun t => (t.pixel 0 0, t.pixel 0 1, t.pixel 0 4, t.V 0xF)) = some (false, true, false, 1) := by decide
/-- DR4: rows wrap to the top, columns 64 and 65 are clipped. -/
theorem test_drw_edges : after 0xD015 (boot [(0, 62), (1, 30)]) (fun t => (lit t, t.V 0xF)) =
    some ([(62, 0), (62, 1), (62, 2), (63, 2), (62, 30), (63, 30), (62, 31)], 0) := by decide

/-! ## Keypad and timers -/

/-- KY1, KY2. -/
theorem test_skp : after 0xE19E ((boot [(1, 5)]).setKeyLevel 5 true) State.pc = some 0x204 ∧
    after 0xE19E (boot [(1, 5)]) State.pc = some 0x202 := by decide
/-- KY3. -/
theorem test_skp_range : after 0xE19E (boot [(1, 0x10)]) State.run = some (err .operandRangeError 0xE19E (some 0x10)) := by decide
/-- KY1, KY2. -/
theorem test_sknp : after 0xE1A1 ((boot [(1, 5)]).setKeyLevel 5 true) State.pc = some 0x202 ∧
    after 0xE1A1 (boot [(1, 5)]) State.pc = some 0x204 := by decide
/-- KY4. -/
theorem test_sknp_range : after 0xE1A1 (boot [(1, 0xFF)]) State.run = some (err .operandRangeError 0xE1A1 (some 0xFF)) := by
  decide
/-- TK1. -/
theorem test_ld_vx_dt : after 0xF207 (State.reset.setDt 0x3C) (·.V 2) = some 0x3C := by decide
/-- TK2. -/
theorem test_ld_dt : after 0xF215 (boot [(2, 0x3C)]) State.dt = some 0x3C := by decide
/-- TK2. -/
theorem test_ld_st : after 0xF218 (boot [(2, 0x3C)]) State.st = some 0x3C := by decide
/-- L1-10: the wait holds the pc. -/
theorem test_ld_vx_k : after 0xF30A State.reset (fun t => (t.run, t.pc)) = some (.blockedOnKey 3, 0x200) := by decide
/-- L1-10: the press ends it. -/
theorem test_press_ends_the_wait : acted (.setKey 0xB true) (State.reset.setRun (.blockedOnKey 3))
    (fun t => (t.V 3, t.isPressed 0xB, t.pc, t.run)) = some (0x0B, true, 0x202, .running) := by decide
/-- KY7: a key held already does not end it. -/
theorem test_held_key_keeps_the_wait : acted (.setKey 2 true) ((State.reset.setKeyLevel 2 true).setRun (.blockedOnKey 3))
    State.run = some (.blockedOnKey 3) := by decide
/-- L1-9: at 0 a timer stays; TK5: it counts while blocked. -/
theorem test_tick : acted .tick State.reset State.dt = some 0 ∧
    acted .tick ((State.reset.setDt 2).setRun (.blockedOnKey 0)) (fun t => (t.dt, t.run)) = some (1, .blockedOnKey 0) := by decide
/-- TK6. -/
theorem test_tick_halted : acted .tick ((State.reset.setDt 2).setRun (err .decodeError 0x5121 none)) State.dt = some 2 := by
  decide
/-- L1-2. -/
theorem test_load : (stateOf (load [0xA2, 0x1E, 0x60])).mem = [(0x200, 0xA2), (0x201, 0x1E), (0x202, 0x60)] := by decide

/-! ## Witnesses: the hypotheses of the obligations can be met -/

theorem test_witness_DecodeOfEncodeIsTheInstruction : (Instr.drw 0xF#4 0x0#4 0xF#4).wellFormed = true ∧
    (Instr.sys 0x000#12).wellFormed = true ∧ (Instr.sys 0xFFF#12).wellFormed = true := by decide

theorem test_witness_EncodeOfDecodeIsTheWord : decodeWord 0x81F6#16 = some (.shr 0x1#4 0xF#4) ∧
    decodeWord 0x0000#16 = some (.sys 0x000#12) ∧ decodeWord 0xFF65#16 = some (.loadRegs 0xF#4) := by decide

/-- One word of every group of illegal words. -/
theorem test_witness_IllegalWordsAreThoseOfTheMap : decodeWord 0x500F#16 = none ∧ decodeWord 0x9FF1#16 = none ∧
    decodeWord 0x800F#16 = none ∧ decodeWord 0xEFFF#16 = none ∧ decodeWord 0xF0FF#16 = none := by decide

/-- `LD V1, 0x23` at the last address an instruction can stand at, with no host action listed. -/
def atTheTop : State := (State.reset.setPc 0xFFE).withFetchWord 16 0x6123

theorem test_witness_StepRunsTheDecodedInstruction : atTheTop.run = .running ∧ atTheTop.pc.toNat + 1 < 4096 ∧
    decodeWord (atTheTop.byteAt atTheTop.pc.toNat ++ atTheTop.byteAt (atTheTop.pc.toNat + 1)) = some (.ldImm 0x1#4 0x23#8) ∧
    atTheTop.pending = [] ∧ (atTheTop.setPending [.cycle, .tick]).pending = .cycle :: [.tick] := by decide

theorem test_witness_FetchOutsideMemoryHalts : (State.reset.setPc 0x1000).run = .running ∧
    4096 ≤ (State.reset.setPc 0x1000).pc.toNat ∧ (State.reset.setPc 0xFFF).pc.toNat = 4095 := by decide

theorem test_witness_IllegalWordHalts : let s := (State.reset.setPc 0xFFE).withFetchWord 16 0x5121
    s.run = .running ∧ s.pc.toNat + 1 < 4096 ∧ decodeWord (s.byteAt s.pc.toNat ++ s.byteAt (s.pc.toNat + 1)) = none := by decide

/-- Boot, waiting for a key into VF. -/
def waiting : State := State.reset.setRun (.blockedOnKey 0xF)

/-- Boot, halted by a SYS at 0x200. -/
def halted : State := stateOf (step State.reset)

theorem test_witness_BlockedCycleChangesNothing : waiting.run = .blockedOnKey 0xF ∧
    (∃ t, perform (.setKey 15 true) waiting = .next t ∧ t.run ≠ .blockedOnKey 0xF) ∧
    ∃ t, perform (.restart []) waiting = .next t ∧ t.run ≠ .blockedOnKey 0xF :=
  ⟨by decide, ⟨waiting.setKey 15 true, rfl, by decide⟩, ⟨State.reset, rfl, by decide⟩⟩

theorem test_witness_HaltedBlockIgnoresTheHost : halted.run = .halted ⟨.sysUnsupported, 0x200, some 0x0000, none⟩ := by decide

/-- Boot with a full stack, SP being 16, about to execute CALL 0x400. -/
def fullStack : State := (State.reset.setSp 16).withFetchWord 16 0x2400

theorem test_witness_StepKeepsTheInvariant : State.Inv fullStack ∧ ∃ t, step fullStack = .next t :=
  ⟨⟨by decide, by decide, (fun _ h => nomatch h)⟩, ⟨_, rfl⟩⟩

/-- The invariant holds of a halted block too. -/
theorem test_witness_the_invariant_of_a_halted_block : State.Inv halted ∧ ∃ t, step halted = .next t :=
  ⟨⟨by decide, by decide, by
    intro e h
    have he : e = ⟨.sysUnsupported, 0x200, some 0x0000, none⟩ := (Run.halted.inj h).symm
    subst he
    exact ⟨by decide, by decide, by decide, (fun _ h => nomatch h), by decide⟩⟩, ⟨halted, rfl⟩⟩

/-- The largest pc there is, and a return address at its largest. -/
def farOut : State := (State.reset.setPc 0x10FE).setSlot 15 0x1000

theorem test_witness_StepKeepsThePcInReach : farOut.pcInReach ∧ ∃ t, step farOut = .next t :=
  ⟨⟨by decide, by decide, (fun _ h => nomatch h)⟩, ⟨_, rfl⟩⟩

/-- A block that waits on the last instruction there is. -/
theorem test_witness_waiting_at_the_top : (waiting.setPc 0xFFE).pcInReach ∧ ∃ t, step (waiting.setPc 0xFFE) = .next t :=
  ⟨⟨by decide, by decide, fun _ _ => by decide⟩, ⟨_, rfl⟩⟩

theorem test_witness_FatalErrorChangesOnlyRun : State.reset.run = .running ∧
    ∃ t, exec (.sys 0x123#12) State.reset = .next t ∧ t.run = .halted ⟨.sysUnsupported, 0x200, some 0x0123, none⟩ :=
  ⟨by decide, _, rfl, by decide⟩

theorem test_witness_PcAfterEveryInstruction :
    (∃ t, exec (.jpV0 0xFFF#12) (boot [(0, 0xFF)]) = .next t ∧ t.live) ∧
    ∃ t, exec (.ldF 0x4#4) (boot [(4, 0x10)]) = .next t ∧ ¬ t.live :=
  ⟨⟨_, rfl, (fun _ h => nomatch h)⟩, ⟨_, rfl, fun h => h _ rfl⟩⟩

theorem test_witness_RunStateTransitions :
    (∃ t, exec (.ldVxK 0xF#4) State.reset = .next t ∧ t.run = .blockedOnKey 0xF) ∧
    (∃ t, perform .tick halted = .next t ∧ halted.run = .halted ⟨.sysUnsupported, 0x200, some 0x0000, none⟩) ∧
    (∃ t, perform .tick State.reset = .next t ∧ State.reset.run = .running) ∧
    (∃ t, perform (.setKey 15 true) waiting = .next t ∧ waiting.run = .blockedOnKey 0xF ∧ waiting.isPressed 15 = false) ∧
    ∃ t, perform (.setKey 15 true) (waiting.setKeyLevel 15 true) = .next t ∧
      (waiting.setKeyLevel 15 true).isPressed 15 = true :=
  ⟨⟨_, rfl, by decide⟩, ⟨_, rfl, by decide⟩, ⟨_, rfl, by decide⟩, ⟨_, rfl, by decide, by decide⟩, ⟨_, rfl, by decide⟩⟩

theorem test_witness_OnlySixInstructionsWriteTheFlag :
    (∃ t, exec (.addImm 0x1#4 0xFF#8) (boot [(1, 0xFF)]) = .next t ∧ ¬ writesFlag (.addImm 0x1#4 0xFF#8) ∧
      ¬ destination (.addImm 0x1#4 0xFF#8) vF ∧ ¬ destination (.addImm 0x1#4 0xFF#8) 0x2#4) ∧
    (∃ t, exec (.add 0xF#4 0xE#4) State.reset = .next t ∧ writesFlag (.add 0xF#4 0xE#4) ∧ State.reset.run = .running ∧ t.live) ∧
    ∃ t, exec (.loadRegs 0xE#4) State.reset = .next t ∧ ¬ destination (.loadRegs 0xE#4) vF :=
  ⟨⟨_, rfl, id, by simp only [destination]; decide, by simp only [destination]; decide⟩,
    ⟨_, rfl, trivial, by decide, (fun _ h => nomatch h)⟩, ⟨_, rfl, by simp only [destination]; decide⟩⟩

/-- For each part, an instruction that writes it. -/
theorem test_witness_EachPartHasItsWriters :
    (∃ t, exec (.storeRegs 0x0#4) ((boot [(0, 1)]).setI 0xFFF) = .next t ∧ t.byteAt 0xFFF ≠ 0) ∧
    (∃ t, exec (.call 0x400#12) (State.reset.setSp 15) = .next t ∧ t.slot 15 ≠ 0 ∧ t.sp ≠ 15) ∧
    (∃ t, exec (.drw 0x0#4 0x0#4 0x1#4) State.reset = .next t ∧ t.pixel 0 3 ≠ false) ∧
    (∃ t, exec (.ldI 0x001#12) State.reset = .next t ∧ t.i ≠ 0) ∧
    (∃ t, exec (.ldDt 0x1#4) (boot [(1, 1)]) = .next t ∧ t.dt ≠ 0) ∧
    (∃ t, exec (.ldSt 0x1#4) (boot [(1, 1)]) = .next t ∧ t.st ≠ 0) ∧
    ∃ t, exec (.rnd 0x1#4 0x00#8) State.reset = .next t ∧ t.draws ≠ 0 :=
  ⟨⟨_, rfl, by decide⟩, ⟨_, rfl, by decide, by decide⟩, ⟨_, rfl, by decide⟩, ⟨_, rfl, by decide⟩, ⟨_, rfl, by decide⟩,
    ⟨_, rfl, by decide⟩, ⟨_, rfl, by decide⟩⟩

theorem test_witness_KeysMatterToKeyTestsOnly : ∀ x, Instr.ldVxK 0x3#4 ≠ .skp x ∧ Instr.ldVxK 0x3#4 ≠ .sknp x := by decide

theorem test_witness_NoInstructionReadsTheSoundTimer : (∀ x, Instr.ldVxDt 0x3#4 ≠ .ldSt x) ∧
    ∃ x, Instr.ldSt 0xF#4 = .ldSt x := ⟨by decide, ⟨0xF, rfl⟩⟩

/-- Two states, SP being 1, that differ in the entry at SP. -/
theorem test_witness_StaleStackEntriesAreNeverRead :
    sameButStale (State.reset.setSp 1) ((State.reset.setSp 1).setSlot 1 0x202) ∧
    (State.reset.setSp 1).slot 1 ≠ ((State.reset.setSp 1).setSlot 1 0x202).slot 1 :=
  ⟨⟨rfl, by decide⟩, by decide⟩

theorem test_witness_CallPushesTheReturnAddress :
    (State.reset.setSp 15).sp.toNat < 16 ∧ (State.reset.setSp 16).sp.toNat = 16 := by decide

theorem test_witness_ReturnPopsTheStack : State.reset.sp.toNat = 0 ∧
    (0 < (State.reset.setSp 1).sp.toNat ∧ (State.reset.setSp 1).sp.toNat ≤ 16) ∧
    0 < (State.reset.setSp 16).sp.toNat ∧ (State.reset.setSp 16).sp.toNat ≤ 16 := by decide

theorem test_witness_CallThenReturnComesBack : (State.reset.setSp 15).sp.toNat < 16 := by decide

theorem test_witness_CallAndReturnStopAboveSixteen : 16 < (State.reset.setSp 17).sp.toNat := by decide

/-- A register that is not VF, for the clauses of the result. -/
theorem test_witness_flag_instructions : (0xE#4 : Nibble) ≠ vF := by decide

theorem test_witness_RandomByteUnderTheMask : (0x7F#8).getLsbD 7 = false := by decide

theorem test_witness_FontAddressOfADigit : ((boot [(4, 0x0F)]).V 4).toNat ≤ 15 ∧ 15 < ((boot [(4, 0x10)]).V 4).toNat := by decide

theorem test_witness_BcdStoresThreeDigits :
    (State.reset.setI 0xFFD).i.toNat + 2 < 4096 ∧ Memory.wf (State.reset.setI 0xFFD).mem = true := by decide

theorem test_witness_StoreRegistersWritesTheRange : (State.reset.setI 0xFFD).i.toNat + (0x2#4).toNat < 4096 ∧
    Memory.wf (State.reset.setI 0xFFD).mem = true ∧ (0x2#4).toNat ≤ (0x2#4).toNat ∧
    (State.reset.setI 0xFFF).i.toNat + (0x0#4).toNat < 4096 := by decide

theorem test_witness_LoadRegistersReadsTheRange : (State.reset.setI 0xFF0).i.toNat + (0xF#4).toNat < 4096 ∧
    (0xF#4).toNat ≤ (0xF#4).toNat ∧ (State.reset.setI 0xFFF).i.toNat + (0x0#4).toNat < 4096 := by decide

theorem test_witness_AccessOutsideMemoryHalts : 4096 ≤ (State.reset.setI 0xFFE).i.toNat + 2 ∧
    4096 ≤ (State.reset.setI 0xFFD).i.toNat + (0x3#4).toNat ∧ 4096 ≤ (State.reset.setI 0x1000).i.toNat + (0x0#4).toNat ∧
    (1 ≤ (0x3#4).toNat ∧ 4096 ≤ (State.reset.setI 0xFFE).i.toNat + (0x3#4).toNat - 1) ∧
    1 ≤ (0x1#4).toNat ∧ 4096 ≤ (State.reset.setI 0x1000).i.toNat + (0x1#4).toNat - 1 := by decide

theorem test_witness_StoreThenLoadRestoresRegisters : Memory.wf (State.reset.setI 0xFF0).mem = true ∧
    (State.reset.setI 0xFF0).i.toNat + (0xF#4).toNat < 4096 ∧ (0xF#4).toNat ≤ (0xF#4).toNat := by decide

/-- IM20, and the last pc at which two registers fit behind it. -/
theorem test_witness_StoredBytesAreFetchedNext : Memory.wf (State.reset.setI 0x202).mem = true ∧ 1 ≤ (0x1#4).toNat ∧
    (State.reset.setI 0x202).i = (State.reset.setI 0x202).pc + 2 ∧ (State.reset.setI 0x202).i.toNat + (0x1#4).toNat < 4096 ∧
    ((State.reset.setPc 0xFFC).setI 0xFFE).i = ((State.reset.setPc 0xFFC).setI 0xFFE).pc + 2 ∧
    ((State.reset.setPc 0xFFC).setI 0xFFE).i.toNat + (0x1#4).toNat < 4096 := by decide

/-- DR9 and DR7: two rows up to the last byte of memory, and no row with I far outside. -/
theorem test_witness_DrawTogglesTheCoveredPixels :
    ((0x2#4).toNat = 0 ∨ (State.reset.setI 0xFFE).i.toNat + (0x2#4).toNat ≤ 4096) ∧
    ((0x0#4).toNat = 0 ∨ (State.reset.setI 0xFFFF).i.toNat + (0x0#4).toNat ≤ 4096) := by decide

/-- A covered pixel in the last column and, by the wrap, in the first row. -/
theorem test_witness_a_covered_pixel : drawCovers (boot [(0, 63), (1, 31)]) 0 1 2 0 63 ∧
    (boot [(0, 63), (1, 31)]).pixel 0 63 = false ∧
    drawCovers ((boot [(0, 63), (1, 31)]).setFb (Framebuffer.setPixel State.reset.fb 0 63 true)) 0 1 2 0 63 ∧
    ((boot [(0, 63), (1, 31)]).setFb (Framebuffer.setPixel State.reset.fb 0 63 true)).pixel 0 63 = true :=
  ⟨⟨1, 0, by decide⟩, by decide, ⟨1, 0, by decide⟩, by decide⟩

theorem test_witness_DrawTwiceRestoresTheScreen : (0x0#4 : Nibble) ≠ vF ∧ (0xE#4 : Nibble) ≠ vF ∧
    ((0xF#4).toNat = 0 ∨ (State.reset.setI 0xFF1).i.toNat + (0xF#4).toNat ≤ 4096) := by decide

theorem test_witness_KeyTestsSkipOnTheLevel : ((boot [(1, 0x0F)]).V 1).toNat = (0xF#4).toNat ∧
    15 < ((boot [(1, 0x10)]).V 1).toNat := by decide

theorem test_witness_KeyWaitBlocksOnItself : (State.reset.setKeyLevel 15 true).isPressed 15 = true ∧
    State.reset.isPressed 15 = false := by decide

theorem test_witness_TickCountsTheTimersDown : State.reset.live ∧ waiting.live ∧ ¬ halted.live :=
  ⟨(fun _ h => nomatch h), (fun _ h => nomatch h), fun h => h ⟨.sysUnsupported, 0x200, some 0x0000, none⟩ (by decide)⟩

theorem test_witness_TicksStopAtZero : (waiting.setDt 0xFF).live := fun _ h => nomatch h

theorem test_witness_KeyChangesAndTheKeyWait : 15 < 16 ∧ waiting.live ∧ waiting.run = .blockedOnKey 0xF ∧
    waiting.isPressed (BitVec.ofNat 4 15) = false ∧ (waiting.setKeyLevel 15 true).live ∧
    (waiting.setKeyLevel 15 true).isPressed (BitVec.ofNat 4 15) = true ∧ State.reset.live ∧ State.reset.run = .running ∧
    16 ≤ 16 :=
  ⟨by decide, (fun _ h => nomatch h), by decide, by decide, (fun _ h => nomatch h), by decide, (fun _ h => nomatch h), by decide,
    by decide⟩

/-- L1-1. -/
theorem test_witness_LoadPlacesTheRom : (List.replicate 3584 (0x5A : Byte)).length ≤ 3584 ∧
    3583 < (List.replicate 3584 (0x5A : Byte)).length := by
  rw [List.length_replicate]; decide

/-- L1-1. -/
theorem test_witness_LoadAndRestartBootTheBlock : (List.replicate 3584 (0x5A : Byte)).length ≤ 3584 ∧
    3584 < (List.replicate 3585 (0x5A : Byte)).length := by
  rw [List.length_replicate, List.length_replicate]; decide

/-- Cycles and ticks in turn. -/
def inTurn (n : Nat) : HostAction := if n % 2 = 0 then .cycle else .tick

theorem test_witness_DelayRunsOutDuringTheKeyWait : hostDuties inTurn ∧ (waiting.setDt 0xFF).run = .blockedOnKey 0xF ∧
    (∀ n k, inTurn n ≠ .setKey k true) ∧ ∀ n rom, inTurn n ≠ .restart rom := by
  refine ⟨⟨fun n k p h => ?_, fun n => ⟨2 * n, by omega, ?_⟩, fun n => ⟨2 * n + 1, by omega, ?_⟩⟩, rfl, fun n k h => ?_,
    fun n rom h => ?_⟩
  · unfold inTurn at h; split at h <;> cases h
  · rw [inTurn, if_pos (by omega)]
  · rw [inTurn, if_neg (by omega)]
  · unfold inTurn at h; split at h <;> cases h
  · unfold inTurn at h; split at h <;> cases h

end Sys2Proof.Tests
end

section
/-! The statements of 40_cycle.md: what a step runs, and what ends a key wait. -/

namespace Sys2Proof.Machine

/-! The step and the cycle. -/

theorem step_of_pending_nil {s : State} (h : s.pending = []) : step s = cycle s := by
  simp only [step, nextAction, h]

theorem step_of_pending_cons {s : State} {a : HostAction} {rest : List HostAction} (h : s.pending = a :: rest) :
    step s = perform a (s.setPending rest) := by
  simp only [step, nextAction, h]

/-- A fetch inside memory hands its word to decode and execute (40_cycle.md R90, R97). -/
theorem cycle_of_running {s : State} (hrun : s.run = .running) (hpc : s.pc.toNat + 1 < 4096) :
    cycle s = executeWord (wordOfBytes (s.byteAt s.pc.toNat) (s.byteAt (s.pc.toNat + 1))) s := by
  simp only [cycle, hrun, runningCycle, State.fetch_ok hpc]

theorem executeWord_of_decode {w : Word} {i : Instr} (h : decodeWord w = some i) (s : State) :
    executeWord w s = exec i s := by
  simp only [executeWord, h]

/-- A cycle in Running is the instruction that stands at the pc (40_cycle.md R91, R92). -/
theorem cycle_of_decode {s : State} {i : Instr} (hrun : s.run = .running) (hpc : s.pc.toNat + 1 < 4096)
    (hi : decodeWord (s.byteAt s.pc.toNat ++ s.byteAt (s.pc.toNat + 1)) = some i) : cycle s = exec i s :=
  (cycle_of_running hrun hpc).trans (executeWord_of_decode hi s)

theorem cycle_of_blocked {s : State} {x : Nibble} (h : s.run = .blockedOnKey x) : cycle s = .next s := by
  simp only [cycle, h]

/-! The host's actions and the run state. -/

@[simp] theorem State.tick_run (s : State) : s.tick.run = s.run := by
  obtain h | h := s.tick_eq <;> simp [h]

/-- A key change that ends a wait is a press transition (40_cycle.md R98, 60_exceptions.md R236). -/
theorem State.press_of_setKey_run_ne {s : State} {k : Nibble} {p : Bool} (h : (s.setKey k p).run ≠ s.run) :
    p = true ∧ s.isPressed k = false := by
  obtain ⟨_, _, hs⟩ | ⟨_, _, hp, hk, _⟩ | ⟨hs, _⟩ := s.setKey_cases k p
  · exact absurd (congrArg State.run hs) h
  · exact ⟨hp, hk⟩
  · exact absurd (congrArg State.run hs) h

/-- All that can end a key wait, action by action. -/
theorem press_or_restart_of_wait_ends {s t : State} {x : Nibble} {a : HostAction} (hrun : s.run = .blockedOnKey x)
    (ht : perform a s = .next t) (hne : t.run ≠ .blockedOnKey x) :
    (∃ k : Nat, k < 16 ∧ a = .setKey k true ∧ s.isPressed (BitVec.ofNat 4 k) = false) ∨ ∃ rom, a = .restart rom := by
  have stays : ∀ {u : State}, Host.Outcome.next u = (.next t : Result) → u.run ≠ s.run := by
    intro u hu
    cases hu
    rwa [hrun]
  cases a with
  | cycle => exact absurd rfl (stays ((cycle_of_blocked hrun).symm.trans ht))
  | tick => exact absurd s.tick_run (stays ht)
  | setKey k p =>
    by_cases hk : k < 16
    · obtain ⟨rfl, hup⟩ := State.press_of_setKey_run_ne (stays (by simpa only [perform, if_pos hk] using ht))
      exact .inl ⟨k, hk, rfl, hup⟩
    · simp [perform, hk] at ht
  | restart rom => exact .inr ⟨rom, rfl⟩
  | readFramebuffer => exact absurd rfl (stays ht)
  | readSound => exact absurd rfl (stays ht)
  | readError => exact absurd rfl (stays ht)

/-! The statements. -/

/-- Settles O8: a blocked cycle is the identity, and of the host's actions only a press transition changes `run`,
the restart apart. -/
theorem blockedCycleChangesNothing : Obligations.BlockedCycleChangesNothing :=
  fun _ _ hrun => ⟨cycle_of_blocked hrun, fun _ _ ht hne => press_or_restart_of_wait_ends hrun ht hne⟩

/-- Settles O5: with no action listed, or a cycle, the step is the cycle, which runs the word at the pc; the list is
read by neither the fetch nor the decode. -/
theorem stepRunsTheDecodedInstruction : Obligations.StepRunsTheDecodedInstruction := by
  intro s i hrun hpc hi
  refine ⟨fun hnil => ?_, fun rest hcons => ?_⟩
  · exact (step_of_pending_nil hnil).trans (cycle_of_decode hrun hpc hi)
  · exact (step_of_pending_cons hcons).trans (cycle_of_decode (s := s.setPending rest) hrun hpc hi)

end Sys2Proof.Machine
end

section
/-! The statement of 41_flow.md about RET. -/

namespace Sys2Proof.Machine

/-! The frame. -/

/-- The pc is no part that a frame speaks of, so a frame does not see it change. -/
@[simp] theorem Part.same_setPc (p : Part) (s t : State) (w : Word) : p.same s (t.setPc w) ↔ p.same s t := by
  cases p <;> rfl

theorem Untouched.setPc {s t : State} {changed : Part → Prop} (h : Untouched s t changed) (w : Word) :
    Untouched s (t.setPc w) changed :=
  fun p hp => (p.same_setPc s t w).mpr (h p hp)

theorem State.setSp_untouched (s : State) (n : Byte) : Untouched s (s.setSp n) fun p => p = .stackPointer := by
  intro p hp
  cases p with
  | stackPointer => exact absurd rfl hp
  | _ => rfl

/-! RET on an empty stack and on a stack that holds an entry (41_flow.md R112). -/

theorem exec_ret_of_sp_eq_zero {s : State} (h : s.sp.toNat = 0) :
    exec .ret s = .next (haltedIn .ret s .stackUnderflow none) :=
  (if_pos h).trans (s.raiseIn_eq .ret .stackUnderflow none)

/-- The pop moves the stack pointer and the pc; the entry stays in its slot. -/
theorem exec_ret_of_sp_pos {s : State} (hpos : 0 < s.sp.toNat) (hle : s.sp.toNat ≤ 16) :
    exec .ret s = .next ((s.setSp (s.sp - 1)).setPc (s.slot (BitVec.ofNat 4 (s.sp.toNat - 1)))) :=
  (if_neg hpos.ne').trans (if_neg hle.not_gt)

/-! The statement. -/

/-- Settles O25: RET is the underflow error at SP = 0 and a pop at SP from 1 to 16, by the equation of each case; the
frame of the pop is the one of the stack pointer's update. -/
theorem returnPopsTheStack : Obligations.ReturnPopsTheStack := by
  refine ⟨by decide, fun s => ⟨exec_ret_of_sp_eq_zero, fun hpos hle => ⟨_, exec_ret_of_sp_pos hpos hle, ?_, ?_, ?_⟩⟩⟩
  · have hone : (1 : Byte) ≤ s.sp := BitVec.le_def.mpr hpos
    exact BitVec.toNat_sub_of_le hone
  · exact State.setPc_pc _ _
  · exact (s.setSp_untouched _).setPc _

end Sys2Proof.Machine
end

section
/-! The statements of 42_alu.md about ADD Vx, Vy and SUB Vx, Vy: one rule for every instruction that writes a register and
VF, and the arithmetic of the results and flags. -/

namespace Sys2Proof.Machine

/-! The register and flag writeback (40_cycle.md R94). -/

theorem State.setResultFlag_untouched (s : State) (x : Nibble) (result flag : Byte) :
    Untouched s (s.setResultFlag x result flag) fun p => p = .reg x ∨ p = .reg vF := by
  intro p hp
  obtain ⟨hx, hF⟩ := not_or.mp hp
  cases p with
  | reg r =>
    have hrx : r ≠ x := fun e => hx (e ▸ rfl)
    have hrF : r ≠ vF := fun e => hF (e ▸ rfl)
    simp [Part.same, hrx, hrF]
  | _ => rfl

/-- All that an instruction with a result and a flag does; the flag is written last, so VF holds it whatever x is. -/
theorem State.writeRegFlag_next (s : State) (x : Nibble) (result flag : Byte) :
    ∃ t, s.writeRegFlag x result flag = .next t ∧ t.pc = s.pc + 2 ∧ t.V vF = flag ∧ (x ≠ vF → t.V x = result) ∧
      Untouched s t fun p => p = .reg x ∨ p = .reg vF := by
  refine ⟨s.advance.setResultFlag x result flag, rfl, rfl, ?_, fun hx => ?_, ?_⟩
  · simp
  · simp [hx]
  · exact (s.setResultFlag_untouched x result flag).setPc (s.pc + 2)

/-! Results and flags as numbers (00_scope.md R8, 42_alu.md R130). -/

theorem flagOf_decide_toNat (c : Prop) [Decidable c] : (flagOf (decide c)).toNat = if c then 1 else 0 := by
  by_cases h : c <;> simp [flagOf, h]

theorem addByte_toNat (a b : Byte) : (addByte a b).toNat = (a.toNat + b.toNat) % 256 :=
  BitVec.toNat_ofNat _ _

theorem subByte_toNat (a b : Byte) : ((subByte a b).toNat : Int) = ((a.toNat : Int) - b.toNat) % 256 := by
  have hnonneg : 0 ≤ ((a.toNat : Int) - b.toNat) % 256 := Int.emod_nonneg _ (by decide)
  exact (congrArg Nat.cast (BitVec.toNat_ofInt _)).trans (Int.toNat_of_nonneg hnonneg)

/-! ADD and SUB: the word and the meaning. -/

theorem decodeWord_add (x y : Nibble) : decodeWord (wordXYN 0x8#4 x y 0x4#4) = some (.add x y) := by
  simp [decodeWord_op8, decodeGroup8]

theorem decodeWord_sub (x y : Nibble) : decodeWord (wordXYN 0x8#4 x y 0x5#4) = some (.sub x y) := by
  simp [decodeWord_op8, decodeGroup8]

theorem exec_add (x y : Nibble) (s : State) :
    exec (.add x y) s = s.writeRegFlag x (addByte (s.V x) (s.V y)) (carryFlag (s.V x) (s.V y)) := rfl

theorem exec_sub (x y : Nibble) (s : State) :
    exec (.sub x y) s = s.writeRegFlag x (subByte (s.V x) (s.V y)) (noBorrowFlag (s.V x) (s.V y)) := rfl

/-! The statements. -/

/-- Settles O33: ADD is the writeback of the old operands' sum and carry, for every x and y, so x or y = F is no case of its
own. -/
theorem addSetsTheCarry : Obligations.AddSetsTheCarry := by
  refine fun x y => ⟨decodeWord_add x y, fun s => ?_⟩
  obtain ⟨t, ht, hpc, hflag, hresult, hframe⟩ :=
    s.writeRegFlag_next x (addByte (s.V x) (s.V y)) (carryFlag (s.V x) (s.V y))
  refine ⟨t, (exec_add x y s).trans ht, hpc, ?_, fun hx => ?_, hframe⟩
  · rw [hflag]
    exact flagOf_decide_toNat _
  · rw [hresult hx, addByte_toNat]

/-- Settles O34: SUB is the writeback of the old operands' difference and no-borrow flag; the difference is an integer,
reduced modulo 256 when written. -/
theorem subSetsNoBorrow : Obligations.SubSetsNoBorrow := by
  refine fun x y => ⟨decodeWord_sub x y, fun s => ?_⟩
  obtain ⟨t, ht, hpc, hflag, hresult, hframe⟩ :=
    s.writeRegFlag_next x (subByte (s.V x) (s.V y)) (noBorrowFlag (s.V x) (s.V y))
  refine ⟨t, (exec_sub x y s).trans ht, hpc, ?_, fun hx => ?_, hframe⟩
  · rw [hflag]
    exact flagOf_decide_toNat _
  · rw [hresult hx, subByte_toNat]

end Sys2Proof.Machine
end

section
/-! The statement of 45_timers_keys.md about LD Vx, K: the word, the meaning, and what a key change and a tick do to a block
that waits. -/

namespace Sys2Proof.Machine

/-! LD Vx, K: the word and the meaning (45_timers_keys.md R203). -/

theorem decodeWord_ldVxK (x : Nibble) : decodeWord (wordXNN 0xF#4 x 0x0A#8) = some (.ldVxK x) := by
  simp [decodeWord_opF, decodeGroupF]

/-- The pc goes back to the instruction, so that only the run state is new. -/
theorem exec_ldVxK (x : Nibble) (s : State) : exec (.ldVxK x) s = .next (s.setRun (.blockedOnKey x)) := rfl

theorem State.setRun_untouched (s : State) (r : Run) : Untouched s (s.setRun r) fun p => p = .runState := by
  intro p hp
  cases p with
  | runState => exact absurd rfl hp
  | _ => rfl

/-! A key change while the block waits (60_exceptions.md R236, 45_timers_keys.md R206). -/

/-- A change of a key that is held down is no press transition. -/
theorem State.setKey_run_of_held {s : State} {k : Nibble} (h : s.isPressed k = true) (p : Bool) :
    (s.setKey k p).run = s.run := by
  by_contra hne
  obtain ⟨_, hup⟩ := State.press_of_setKey_run_ne hne
  exact Bool.false_ne_true (hup.symm.trans h)

theorem State.setKey_of_press {s : State} {x k : Nibble} (hrun : s.run = .blockedOnKey x) (h : s.isPressed k = false) :
    s.setKey k true = s.completeKeyWait x k := by
  simp [State.setKey, hrun, h]

@[simp] theorem State.completeKeyWait_run (s : State) (x k : Nibble) : (s.completeKeyWait x k).run = .running := rfl

/-! A tick of a block that has not halted (60_exceptions.md R229). -/

theorem State.live_of_blocked {s : State} {x : Nibble} (h : s.run = .blockedOnKey x) : s.live := by
  intro e he
  cases h.symm.trans he

theorem State.tick_of_live {s : State} (h : s.live) : s.tick = (s.setDt (countDown s.dt)).setSt (countDown s.st) := by
  cases hr : s.run with
  | running => simp only [State.tick, hr]
  | blockedOnKey x => simp only [State.tick, hr]
  | halted e => exact absurd hr (h e)

theorem State.tick_dt_toNat {s : State} (h : s.live) : s.tick.dt.toNat = s.dt.toNat - 1 := by
  rw [State.tick_of_live h, State.setSt_dt, State.setDt_dt, countDown_toNat]

theorem State.tick_st_toNat {s : State} (h : s.live) : s.tick.st.toNat = s.st.toNat - 1 := by
  rw [State.tick_of_live h, State.setSt_st, countDown_toNat]

/-! The statement. -/

/-- Settles O52: the answer is the state before with a new run state, so its keys and timers are the old ones; the rules of
a held key, of a press and of a tick then apply to it. -/
theorem keyWaitBlocksOnItself : Obligations.KeyWaitBlocksOnItself := by
  refine fun x => ⟨decodeWord_ldVxK x, fun s => ⟨s.setRun (.blockedOnKey x), exec_ldVxK x s, ?_⟩⟩
  have hrun : (s.setRun (.blockedOnKey x)).run = .blockedOnKey x := s.setRun_run _
  have hlive := State.live_of_blocked hrun
  refine ⟨s.setRun_pc _, hrun, s.setRun_untouched _, fun k hheld => ?_, fun k hup => ?_, ?_, ?_, ?_⟩
  · exact (State.setKey_run_of_held (s := s.setRun (.blockedOnKey x)) hheld true).trans hrun
  · exact (congrArg State.run (State.setKey_of_press hrun hup)).trans (State.completeKeyWait_run _ x k)
  · exact (State.tick_run _).trans hrun
  · exact State.tick_dt_toNat hlive
  · exact State.tick_st_toNat hlive

end Sys2Proof.Machine
end

section
/-! The statement of 60_exceptions.md about one tick: a halted block ignores it, and the frame of a tick is the two timers. -/

namespace Sys2Proof.Machine

/-! A tick of a halted block (60_exceptions.md R232). -/

theorem State.halted_of_not_live {s : State} (h : ¬ s.live) : ∃ e, s.run = .halted e :=
  not_forall_not.mp h

theorem State.tick_of_not_live {s : State} (h : ¬ s.live) : s.tick = s := by
  obtain ⟨e, he⟩ := State.halted_of_not_live h
  simp only [State.tick, he]

/-! What a tick leaves unchanged (60_exceptions.md R229). -/

@[simp] theorem State.tick_pc (s : State) : s.tick.pc = s.pc := by
  obtain h | h := s.tick_eq <;> simp [h]

theorem Untouched.refl (s : State) (changed : Part → Prop) : Untouched s s changed := by
  intro p _
  cases p <;> rfl

theorem State.setTimers_untouched (s : State) (d b : Byte) :
    Untouched s ((s.setDt d).setSt b) fun p => p = .delayTimer ∨ p = .soundTimer := by
  intro p hp
  cases p with
  | delayTimer => exact absurd (.inl rfl) hp
  | soundTimer => exact absurd (.inr rfl) hp
  | _ => rfl

theorem State.tick_untouched (s : State) : Untouched s s.tick fun p => p = .delayTimer ∨ p = .soundTimer := by
  obtain h | h := s.tick_eq
  · rw [h]
    exact Untouched.refl s _
  · rw [h]
    exact s.setTimers_untouched _ _

/-! The statement. -/

/-- Settles O53: a tick answers `s.tick`, which counts both timers down when the block is live and is `s` itself when it is
halted; the frame holds in both cases. -/
theorem tickCountsTheTimersDown : Obligations.TickCountsTheTimersDown := by
  refine fun s => ⟨s.tick, rfl, s.tick_pc, fun hlive => ?_, fun hhalted => ?_, s.tick_untouched⟩
  · exact ⟨State.tick_dt_toNat hlive, State.tick_st_toNat hlive⟩
  · rw [State.tick_of_not_live hhalted]
    exact ⟨rfl, rfl⟩

end Sys2Proof.Machine
end

section
/-! The statement of 70_reset_and_hazards.md about the load of a ROM that fits: the boot memory, then the block it is in. -/

namespace Sys2Proof.Machine

/-! What a load of a ROM that fits answers (70_reset_and_hazards.md R260 to R262). -/

/-- The boot memory overlaid with the ROM reads, at the i-th address from 0x200, the i-th byte of the ROM. -/
theorem loadMemory_read_rom {rom : List Byte} (hfits : rom.length ≤ 3584) :
    ∃ m, loadMemory rom = .ok m ∧
      ∀ (i : Nat) (h : i < rom.length), Memory.read m (0x200 + i) = rom[i] := by
  obtain ⟨m, hm, _, hread⟩ := loadMemory_ok hfits
  refine ⟨m, hm, fun i h => ?_⟩
  rw [hread, if_pos (Nat.le_add_right _ i), Nat.add_sub_cancel_left, List.getElem?_eq_getElem h, Option.getD_some]

theorem load_of_loadMemory {rom : List Byte} {m : Memory} (h : loadMemory rom = .ok m) :
    load rom = .next (State.reset.setMem m) := by
  simp [load, h]

/-! The statement. -/

/-- Settles O56: the block loaded is the reset state with the memory that `loadMemory` answers, so that its bytes are that
memory's. -/
theorem loadPlacesTheRom : Obligations.LoadPlacesTheRom := by
  intro rom hfits
  obtain ⟨m, hm, hrom⟩ := loadMemory_read_rom hfits
  refine ⟨State.reset.setMem m, load_of_loadMemory hm, fun i h => ?_⟩
  rw [State.setMem_byteAt, hrom i h]

end Sys2Proof.Machine
end

section
/-! The statements of 30_encoding.md: encode and decode are inverse to each other, and which words are illegal. -/

namespace Sys2Proof

/-! A word whose high nibble is known is that nibble with the word's other fields. -/

theorem wordNNN_of_opField {w : Word} {op : Nibble} (h : opField w = op) : wordNNN op (nnnField w) = w :=
  h ▸ wordNNN_fields w

theorem wordXNN_of_fields {w : Word} {op : Nibble} {nn : Byte} (hop : opField w = op) (hnn : nnField w = nn) :
    wordXNN op (xField w) nn = w :=
  hop ▸ hnn ▸ wordXNN_fields w

theorem wordXYN_of_fields {w : Word} {op n : Nibble} (hop : opField w = op) (hn : nField w = n) :
    wordXYN op (xField w) (yField w) n = w :=
  hop ▸ hn ▸ wordXYN_fields w

/-! Group 0: the words of CLS and RET are those of the two SYS operands that are not well-formed (R76). -/

theorem wordNNN_eq_iff {op : Nibble} {nnn : Addr12} {w : Word} (hop : opField w = op) :
    wordNNN op nnn = w ↔ nnn = nnnField w := by
  constructor
  · rintro rfl
    exact (nnnField_wordNNN op nnn).symm
  · rintro rfl
    exact wordNNN_of_opField hop

theorem decodeGroup0_sys {nnn : Addr12} (h : (Instr.sys nnn).wellFormed = true) :
    decodeGroup0 (wordNNN 0x0#4 nnn) = .sys nnn := by
  have hcls : wordNNN 0x0#4 nnn ≠ 0x00E0#16 := by
    intro e
    rw [(wordNNN_eq_iff (by decide)).mp e] at h
    exact absurd h (by decide)
  have hret : wordNNN 0x0#4 nnn ≠ 0x00EE#16 := by
    intro e
    rw [(wordNNN_eq_iff (by decide)).mp e] at h
    exact absurd h (by decide)
  simp [decodeGroup0, hcls, hret]

theorem encode_decodeGroup0 {w : Word} (hop : opField w = 0x0#4) :
    encode (decodeGroup0 w) = w ∧ (decodeGroup0 w).wellFormed = true := by
  have hw : wordNNN 0x0#4 (nnnField w) = w := wordNNN_of_opField hop
  unfold decodeGroup0
  split_ifs with hcls hret
  · exact ⟨hcls.symm, rfl⟩
  · exact ⟨hret.symm, rfl⟩
  · have hE0 : nnnField w ≠ 0x0E0#12 := fun e => hcls (hw.symm.trans (congrArg _ e))
    have hEE : nnnField w ≠ 0x0EE#12 := fun e => hret (hw.symm.trans (congrArg _ e))
    exact ⟨hw, Bool.and_eq_true_iff.mpr ⟨bne_iff_ne.mpr hE0, bne_iff_ne.mpr hEE⟩⟩

/-! Decode of encode. -/

theorem decodeWord_encode {i : Instr} (h : i.wellFormed = true) : decodeWord (encode i) = some i := by
  cases i with
  | sys nnn =>
    rw [encode, decodeWord_op0 (opField_wordNNN _ _), decodeGroup0_sys h]
  | cls => decide
  | ret => decide
  | _ => simp [encode, decodeWord, decodeZeroLow, decodeGroup8, decodeGroupE, decodeGroupF]

theorem decode_bytes_of_decodeWord {w : Word} {i : Instr} (h : decodeWord w = some i) (rest : List Byte) :
    decode (highByte w :: lowByte w :: rest) = .ok (i, rest) := by
  simp [decode, h]

/-- Settles O1: every arm of the encoder is a format whose fields the decoder reads back; the two words of group 0 that
are no SYS are the operands a well-formed SYS does not have. -/
theorem decodeOfEncodeIsTheInstruction : Obligations.DecodeOfEncodeIsTheInstruction :=
  fun _ h => ⟨decodeWord_encode h, decode_bytes_of_decodeWord (decodeWord_encode h)⟩

/-! Encode of decode: the groups decoded by a further field. -/

theorem decodeZeroLow_eq_some {w : Word} {i j : Instr} (h : decodeZeroLow w j = some i) : nField w = 0x0#4 ∧ j = i := by
  unfold decodeZeroLow at h
  split_ifs at h with hn
  exact ⟨hn, Option.some.inj h⟩

theorem encode_decodeGroup8 {w : Word} {i : Instr} (hop : opField w = 0x8#4) (h : decodeGroup8 w = some i) :
    encode i = w ∧ i.wellFormed = true := by
  simp only [decodeGroup8] at h
  split_ifs at h with hn hn hn hn hn hn hn hn hn <;> cases h <;> exact ⟨wordXYN_of_fields hop hn, rfl⟩

theorem encode_decodeGroupE {w : Word} {i : Instr} (hop : opField w = 0xE#4) (h : decodeGroupE w = some i) :
    encode i = w ∧ i.wellFormed = true := by
  simp only [decodeGroupE] at h
  split_ifs at h with hn hn <;> cases h <;> exact ⟨wordXNN_of_fields hop hn, rfl⟩

theorem encode_decodeGroupF {w : Word} {i : Instr} (hop : opField w = 0xF#4) (h : decodeGroupF w = some i) :
    encode i = w ∧ i.wellFormed = true := by
  simp only [decodeGroupF] at h
  split_ifs at h with hn hn hn hn hn hn hn hn hn <;> cases h <;> exact ⟨wordXNN_of_fields hop hn, rfl⟩

/-- A word with a known meaning that encodes back has no other. -/
theorem encode_of_decodeWord_eq {w : Word} {i j : Instr} (hj : decodeWord w = some j)
    (hw : encode j = w ∧ j.wellFormed = true) (h : decodeWord w = some i) : encode i = w ∧ i.wellFormed = true :=
  Option.some.inj (hj.symm.trans h) ▸ hw

/-- Settles O2, by the high nibble: each group's words are the ones its arms encode to. -/
theorem encodeOfDecodeIsTheWord : Obligations.EncodeOfDecodeIsTheWord := by
  intro w i h
  rcases nibble_cases (opField w) with hop | hop | hop | hop | hop | hop | hop | hop | hop | hop | hop | hop | hop | hop |
    hop | hop
  · exact encode_of_decodeWord_eq (decodeWord_op0 hop) (encode_decodeGroup0 hop) h
  · exact encode_of_decodeWord_eq (decodeWord_op1 hop) ⟨wordNNN_of_opField hop, rfl⟩ h
  · exact encode_of_decodeWord_eq (decodeWord_op2 hop) ⟨wordNNN_of_opField hop, rfl⟩ h
  · exact encode_of_decodeWord_eq (decodeWord_op3 hop) ⟨wordXNN_of_fields hop rfl, rfl⟩ h
  · exact encode_of_decodeWord_eq (decodeWord_op4 hop) ⟨wordXNN_of_fields hop rfl, rfl⟩ h
  · obtain ⟨hn, rfl⟩ := decodeZeroLow_eq_some ((decodeWord_op5 hop).symm.trans h)
    exact ⟨wordXYN_of_fields hop hn, rfl⟩
  · exact encode_of_decodeWord_eq (decodeWord_op6 hop) ⟨wordXNN_of_fields hop rfl, rfl⟩ h
  · exact encode_of_decodeWord_eq (decodeWord_op7 hop) ⟨wordXNN_of_fields hop rfl, rfl⟩ h
  · exact encode_decodeGroup8 hop ((decodeWord_op8 hop).symm.trans h)
  · obtain ⟨hn, rfl⟩ := decodeZeroLow_eq_some ((decodeWord_op9 hop).symm.trans h)
    exact ⟨wordXYN_of_fields hop hn, rfl⟩
  · exact encode_of_decodeWord_eq (decodeWord_opA hop) ⟨wordNNN_of_opField hop, rfl⟩ h
  · exact encode_of_decodeWord_eq (decodeWord_opB hop) ⟨wordNNN_of_opField hop, rfl⟩ h
  · exact encode_of_decodeWord_eq (decodeWord_opC hop) ⟨wordXNN_of_fields hop rfl, rfl⟩ h
  · exact encode_of_decodeWord_eq (decodeWord_opD hop) ⟨wordXYN_of_fields hop rfl, rfl⟩ h
  · exact encode_decodeGroupE hop ((decodeWord_opE hop).symm.trans h)
  · exact encode_decodeGroupF hop ((decodeWord_opF hop).symm.trans h)

/-! The illegal words (R82). -/

theorem ite_some_eq_none {α : Type} {c : Prop} [Decidable c] {a : α} {o : Option α} :
    (if c then some a else o) = none ↔ ¬ c ∧ o = none := by
  by_cases h : c <;> simp [h]

theorem decodeZeroLow_eq_none {w : Word} {i : Instr} : decodeZeroLow w i = none ↔ nField w ≠ 0x0#4 := by
  simp [decodeZeroLow]

theorem decodeGroup8_eq_none {w : Word} : decodeGroup8 w = none ↔
    nField w ∈ [0x8#4, 0x9#4, 0xA#4, 0xB#4, 0xC#4, 0xD#4, 0xF#4] := by
  unfold decodeGroup8
  generalize nField w = n
  rcases nibble_cases n with rfl | rfl | rfl | rfl | rfl | rfl | rfl | rfl | rfl | rfl | rfl | rfl | rfl | rfl | rfl | rfl <;>
    simp

theorem decodeGroupE_eq_none {w : Word} : decodeGroupE w = none ↔ nnField w ∉ [0x9E#8, 0xA1#8] := by
  simp [decodeGroupE, ite_some_eq_none]

theorem decodeGroupF_eq_none {w : Word} : decodeGroupF w = none ↔
    nnField w ∉ [0x07#8, 0x0A#8, 0x15#8, 0x18#8, 0x1E#8, 0x29#8, 0x33#8, 0x55#8, 0x65#8] := by
  simp [decodeGroupF, ite_some_eq_none]

/-- Settles O4, by the high nibble: in the groups 5, 8, 9, E and F the group's decoder says when there is no instruction,
and every other group decodes all its words. -/
theorem illegalWordsAreThoseOfTheMap : Obligations.IllegalWordsAreThoseOfTheMap := by
  intro w
  rcases nibble_cases (opField w) with hop | hop | hop | hop | hop | hop | hop | hop | hop | hop | hop | hop | hop | hop |
    hop | hop
  · simp [decodeWord_op0 hop, hop]
  · simp [decodeWord_op1 hop, hop]
  · simp [decodeWord_op2 hop, hop]
  · simp [decodeWord_op3 hop, hop]
  · simp [decodeWord_op4 hop, hop]
  · simp [decodeWord_op5 hop, hop, decodeZeroLow_eq_none]
  · simp [decodeWord_op6 hop, hop]
  · simp [decodeWord_op7 hop, hop]
  · simp [decodeWord_op8 hop, hop, decodeGroup8_eq_none]
  · simp [decodeWord_op9 hop, hop, decodeZeroLow_eq_none]
  · simp [decodeWord_opA hop, hop]
  · simp [decodeWord_opB hop, hop]
  · simp [decodeWord_opC hop, hop]
  · simp [decodeWord_opD hop, hop]
  · simp [decodeWord_opE hop, hop, decodeGroupE_eq_none]
  · simp [decodeWord_opF hop, hop, decodeGroupF_eq_none]

/-- Settles O3: the decoder evaluated at the twelve words. -/
theorem specWordsDecode : Obligations.SpecWordsDecode := by
  unfold Obligations.SpecWordsDecode
  decide

end Sys2Proof
end

section
/-! SUPPORT. The frame of each update of the state, and how frames compose. -/

namespace Sys2Proof.Machine

theorem Untouched.mono {s t : State} {c d : Part → Prop} (h : Untouched s t c) (hcd : ∀ p, c p → d p) : Untouched s t d :=
  fun p hp => h p (mt (hcd p) hp)

theorem Part.same_trans {p : Part} {s t u : State} (hst : p.same s t) (htu : p.same t u) : p.same s u := by
  cases p <;> exact Eq.trans htu hst

theorem Untouched.trans {s t u : State} {c : Part → Prop} (hst : Untouched s t c) (htu : Untouched t u c) : Untouched s u c :=
  fun p hp => Part.same_trans (hst p hp) (htu p hp)

theorem State.setV_untouched (s : State) (x : Nibble) (b : Byte) : Untouched s (s.setV x b) fun p => p = .reg x := by
  intro p hp
  cases p with
  | reg r =>
    have hr : r ≠ x := fun e => hp (congrArg Part.reg e)
    exact (s.setV_V x r b).trans (if_neg hr)
  | _ => rfl

theorem State.setI_untouched (s : State) (w : Word) : Untouched s (s.setI w) fun p => p = .index := by
  intro p hp
  cases p with
  | index => exact absurd rfl hp
  | _ => rfl

theorem State.setSlot_untouched (s : State) (j : Nibble) (w : Word) : Untouched s (s.setSlot j w) fun p => p = .slot j := by
  intro p hp
  cases p with
  | slot l =>
    have hl : l ≠ j := fun e => hp (congrArg Part.slot e)
    exact (s.setSlot_slot j l w).trans (if_neg hl)
  | _ => rfl

theorem State.setDt_untouched (s : State) (b : Byte) : Untouched s (s.setDt b) fun p => p = .delayTimer := by
  intro p hp
  cases p with
  | delayTimer => exact absurd rfl hp
  | _ => rfl

theorem State.setSt_untouched (s : State) (b : Byte) : Untouched s (s.setSt b) fun p => p = .soundTimer := by
  intro p hp
  cases p with
  | soundTimer => exact absurd rfl hp
  | _ => rfl

theorem State.setDraws_untouched (s : State) (n : Nat) : Untouched s (s.setDraws n) fun p => p = .draws := by
  intro p hp
  cases p with
  | draws => exact absurd rfl hp
  | _ => rfl

theorem State.setKeyLevel_untouched (s : State) (k : Nibble) (b : Bool) :
    Untouched s (s.setKeyLevel k b) fun p => p = .key k := by
  intro p hp
  cases p with
  | key l =>
    have hl : l ≠ k := fun e => hp (congrArg Part.key e)
    exact (s.setKeyLevel_isPressed k l b).trans (if_neg hl)
  | _ => rfl

/-- A new framebuffer that agrees with the old one but where `hit` says. -/
theorem State.setFb_untouched {s : State} {fb : Framebuffer} {hit : Fin 32 → Fin 64 → Prop}
    (h : ∀ r c, ¬ hit r c → Framebuffer.pixel fb r c = s.pixel r c) :
    Untouched s (s.setFb fb) fun p => ∃ r c, hit r c ∧ p = .pixel r c := by
  intro p hp
  cases p with
  | pixel r c => exact h r c fun hrc => hp ⟨r, c, hrc, rfl⟩
  | _ => rfl

/-- A new memory that agrees with the old one but where `hit` says. -/
theorem State.setMem_untouched {s : State} {m : Memory} {hit : Nat → Prop}
    (h : ∀ a, ¬ hit a → Memory.read m a = s.byteAt a) : Untouched s (s.setMem m) fun p => ∃ a, hit a ∧ p = .byte a := by
  intro p hp
  cases p with
  | byte a => exact h a fun ha => hp ⟨a, ha, rfl⟩
  | _ => rfl

theorem State.setFb_untouched_pixels (s : State) (fb : Framebuffer) :
    Untouched s (s.setFb fb) fun p => ∃ r c, p = .pixel r c :=
  (State.setFb_untouched (hit := fun _ _ => True) fun _ _ h => absurd trivial h).mono fun _ ⟨r, c, _, hp⟩ => ⟨r, c, hp⟩

theorem State.setMem_untouched_bytes (s : State) (m : Memory) : Untouched s (s.setMem m) fun p => ∃ a, p = .byte a :=
  (State.setMem_untouched (hit := fun _ => True) fun _ h => absurd trivial h).mono fun _ ⟨a, _, hp⟩ => ⟨a, hp⟩

/-- A run of registers written from V0 leaves the registers behind it alone. -/
theorem State.setRegsFrom_untouched {s : State} {x : Nibble} {bs : List Byte} (hlen : bs.length = rangeCount x) :
    Untouched s (s.setRegsFrom 0 bs) fun p => ∃ k : Nibble, k.toNat ≤ x.toNat ∧ p = .reg k := by
  have hx := x.isLt
  unfold rangeCount at hlen
  rw [State.setRegsFrom_frame]
  intro p hp
  cases p with
  | reg r =>
    have hr : x.toNat < r.toNat := by
      by_contra hle
      exact hp ⟨r, by omega, rfl⟩
    have hnone : bs[r.toNat - 0]? = none := List.getElem?_eq_none (by omega)
    refine (s.setRegsFrom_V 0 bs (by omega) r).trans ?_
    rw [hnone, Option.getD_none, ite_self]
  | _ => rfl

end Sys2Proof.Machine
end

section
/-! SUPPORT. Everything an instruction can do, said once: it fails and only `run` changes, or it completes and leaves the
pc, the run state and the parts that its rule names. -/

namespace Sys2Proof.Machine

/-- The parts of the state an instruction may write when it completes (10_state.md R21, R22, R28 to R35). -/
def footprint (i : Instr) (p : Part) : Prop :=
  match i with
  | .sys _ | .jp _ | .jpV0 _ | .seImm _ _ | .sneImm _ _ | .seReg _ _ | .sneReg _ _ | .skp _ | .sknp _ => False
  | .ldImm x _ | .addImm x _ | .ldReg x _ | .or x _ | .and x _ | .xor x _ | .ldVxDt x => p = .reg x
  | .add x _ | .sub x _ | .shr x _ | .subn x _ | .shl x _ => p = .reg x ∨ p = .reg vF
  | .rnd x _ => p = .reg x ∨ p = .draws
  | .loadRegs x => ∃ k : Nibble, k.toNat ≤ x.toNat ∧ p = .reg k
  | .ldI _ | .addI _ | .ldF _ => p = .index
  | .ldB _ | .storeRegs _ => ∃ a, p = .byte a
  | .cls => ∃ r c, p = .pixel r c
  | .drw _ _ _ => p = .reg vF ∨ ∃ r c, p = .pixel r c
  | .ret => p = .stackPointer
  | .call _ => p = .stackPointer ∨ ∃ j, p = .slot j
  | .ldDt _ => p = .delayTimer
  | .ldSt _ => p = .soundTimer
  | .ldVxK _ => p = .runState

/-- The run state after an instruction that completes: only the key wait changes it (40_cycle.md R101). -/
def runAfter (i : Instr) (s : State) : Run :=
  match i with
  | .ldVxK x => .blockedOnKey x
  | _ => s.run

/-- The instruction has halted the block: only `run` is new, and it holds a record that the error table admits. -/
def Fails (i : Instr) (s t : State) : Prop :=
  ∃ code info, t = haltedIn i s code info ∧
    ErrorRecord.fits { code := code, pc := s.pc, opcode := some (encode i), info := info }

/-- The instruction has done its work. -/
structure Completes (i : Instr) (s t : State) : Prop where
  pc : t.pc = pcAfter i s
  run : t.run = runAfter i s
  frame : Untouched s t (footprint i)
  flag : writesFlag i → t.V vF = 0 ∨ t.V vF = 1
  key : t.key = s.key
  /-- Memory changes through runs of writes alone, which keep its canonical form. -/
  mem : t.mem = s.mem ∨ ∃ a bs, Memory.writeRun s.mem a bs = .ok t.mem
  /-- A stack entry that changes is a return address. -/
  slot : ∀ j, t.slot j = s.slot j ∨ t.slot j = s.pc + 2
  sp : t.sp = s.sp ∨ t.sp.toNat ≤ 16

/-! Records that the error table admits (60_exceptions.md R220, R221). -/

theorem fits_of_memoryFault {pc : Word} {op : Option Word} {a : Nat} (h : 4096 ≤ a) :
    ErrorRecord.fits ⟨.memoryFault, pc, op, some a⟩ := by
  simpa [ErrorRecord.fits] using h

theorem fits_of_operandRangeError {pc w : Word} {b : Byte} (h : 15 < b.toNat) :
    ErrorRecord.fits ⟨.operandRangeError, pc, some w, some b.toNat⟩ := by
  have hb := b.isLt
  simp [ErrorRecord.fits]
  omega

theorem fits_of_no_info {code : ErrorCode} {pc w : Word} (hload : code ≠ .loadError) (hmem : code ≠ .memoryFault)
    (hrange : code ≠ .operandRangeError) : ErrorRecord.fits ⟨code, pc, some w, none⟩ := by
  simp [ErrorRecord.fits, hload, hmem, hrange]

/-! The operations that several instructions share. -/

section shared
variable {i : Instr} {s t u : State}

theorem cases_of_next (h : (.next u : Result) = .next t) (hc : Completes i s u) : Fails i s t ∨ Completes i s t := by
  cases h
  exact .inr hc

/-- An instruction that leaves memory, stack, keys and flag alone. -/
theorem Completes.of_frame (hflag : ¬ writesFlag i) (hpc : t.pc = pcAfter i s) (hrun : t.run = runAfter i s)
    (hframe : Untouched s t (footprint i)) (hkey : t.key = s.key) (hmem : t.mem = s.mem) (hstack : t.stack = s.stack)
    (hsp : t.sp = s.sp) : Completes i s t where
  pc := hpc
  run := hrun
  frame := hframe
  flag := fun h => absurd h hflag
  key := hkey
  mem := .inl hmem
  slot := fun j => .inl (by simp only [State.slot, hstack])
  sp := .inl hsp

/-- Jumps and skips. -/
theorem Completes.of_setPc {w : Word} (hflag : ¬ writesFlag i) (hpc : w = pcAfter i s) (hrun : runAfter i s = s.run) :
    Completes i s (s.setPc w) :=
  .of_frame hflag hpc hrun.symm ((Untouched.refl s _).setPc w) rfl rfl rfl rfl

theorem Completes.of_advanceSkipIf {c : Bool} (hflag : ¬ writesFlag i)
    (hpc : (if c then s.pc + 4 else s.pc + 2) = pcAfter i s) (hrun : runAfter i s = s.run) :
    Completes i s (s.advanceSkipIf c) := by
  rw [State.advanceSkipIf_eq]
  exact .of_setPc hflag hpc hrun

theorem Completes.of_writeReg {x : Nibble} {b : Byte} (hflag : ¬ writesFlag i) (hpc : s.pc + 2 = pcAfter i s)
    (hrun : runAfter i s = s.run) (hfoot : footprint i = fun p => p = .reg x) : Completes i s (s.advance.setV x b) :=
  .of_frame hflag hpc hrun.symm (hfoot ▸ (s.setV_untouched x b).setPc _) rfl rfl rfl rfl

theorem Completes.of_setI {w : Word} (hflag : ¬ writesFlag i) (hpc : s.pc + 2 = pcAfter i s)
    (hrun : runAfter i s = s.run) (hfoot : footprint i = fun p => p = .index) : Completes i s (s.advance.setI w) :=
  .of_frame hflag hpc hrun.symm (hfoot ▸ (s.setI_untouched w).setPc _) rfl rfl rfl rfl

theorem flagOf_cases (c : Bool) : flagOf c = 0 ∨ flagOf c = 1 := by
  cases c
  · exact .inl rfl
  · exact .inr rfl

theorem Completes.of_writeRegFlag {x : Nibble} {b : Byte} {c : Bool} (hpc : s.pc + 2 = pcAfter i s)
    (hrun : runAfter i s = s.run) (hfoot : footprint i = fun p => p = .reg x ∨ p = .reg vF) :
    Completes i s (s.advance.setResultFlag x b (flagOf c)) where
  pc := hpc
  run := hrun.symm
  frame := hfoot ▸ (s.setResultFlag_untouched x b (flagOf c)).setPc _
  flag := fun _ => by simpa using flagOf_cases c
  key := rfl
  mem := .inl rfl
  slot := fun _ => .inl rfl
  sp := .inl rfl

/-- LD B and LD [I], Vx. -/
theorem Completes.of_writeRun {a : Nat} {bs : List Byte} {m : Memory} (hm : Memory.writeRun s.mem a bs = .ok m)
    (hflag : ¬ writesFlag i) (hpc : s.pc + 2 = pcAfter i s) (hrun : runAfter i s = s.run)
    (hfoot : footprint i = fun p => ∃ a, p = .byte a) : Completes i s (s.advance.setMem m) where
  pc := hpc
  run := hrun.symm
  frame := hfoot ▸ (s.setMem_untouched_bytes m).setPc _
  flag := fun h => absurd h hflag
  key := rfl
  mem := .inr ⟨a, bs, hm⟩
  slot := fun _ => .inl rfl
  sp := .inl rfl

/-- An access through I that faults names an address outside memory. -/
theorem orMemoryFault_cases {α : Type} {access : Except Nat α} {go : α → State}
    (h : s.orMemoryFault i access go = .next t) (herr : ∀ a, access = .error a → 4096 ≤ a)
    (hok : ∀ x, access = .ok x → Completes i s (go x)) : Fails i s t ∨ Completes i s t := by
  obtain ⟨x, hx, rfl⟩ | ⟨a, ha, rfl⟩ := State.orMemoryFault_next h
  · exact .inr (hok x hx)
  · exact .inl ⟨_, _, rfl, fits_of_memoryFault (herr a ha)⟩

theorem readRun_error_le {m : Memory} {a n e : Nat} (h : Memory.readRun m a n = .error e) : 4096 ≤ e := by
  rw [(Memory.readRun_error h).1]
  exact le_max_right _ _

theorem writeRun_error_le {m : Memory} {a e : Nat} {bs : List Byte} (h : Memory.writeRun m a bs = .error e) : 4096 ≤ e := by
  rw [(Memory.writeRun_error h).1]
  exact le_max_right _ _

theorem withDigit_cases {x : Nibble} {go : Nibble → State} (h : s.withDigit i x go = .next t)
    (hok : Completes i s (go ((s.V x).setWidth 4))) : Fails i s t ∨ Completes i s t := by
  obtain ⟨_, rfl⟩ | ⟨hx, rfl⟩ := State.withDigit_next h
  · exact .inr hok
  · exact .inl ⟨_, _, rfl, fits_of_operandRangeError hx⟩

end shared

end Sys2Proof.Machine
end

section
/-! SUPPORT. CALL and RET by the value of SP, and what each of the 35 instructions can do: it fails or it completes. -/

namespace Sys2Proof.Machine

/-! Jump targets and skips as `pcAfter` writes them. -/

theorem addrOf_toNat (nnn : Addr12) : (addrOf nnn).toNat = nnn.toNat :=
  BitVec.toNat_setWidth_of_le (by decide)

theorem addrOf_eq (nnn : Addr12) : addrOf nnn = BitVec.ofNat 16 nnn.toNat :=
  (BitVec.ofNat_toNat 16 nnn).symm

theorem zext16_toNat (b : Byte) : (zext16 b).toNat = b.toNat :=
  BitVec.toNat_setWidth_of_le (by decide)

theorem addrOf_add_zext16_toNat (nnn : Addr12) (b : Byte) : (addrOf nnn + zext16 b).toNat = nnn.toNat + b.toNat := by
  have h1 := nnn.isLt
  have h2 := b.isLt
  rw [BitVec.toNat_add, addrOf_toNat, zext16_toNat]
  omega

theorem addrOf_add_zext16 (nnn : Addr12) (b : Byte) : addrOf nnn + zext16 b = BitVec.ofNat 16 (nnn.toNat + b.toNat) := by
  rw [← addrOf_add_zext16_toNat, BitVec.ofNat_toNat, BitVec.setWidth_eq]

/-! CALL, by the value of SP (41_flow.md R114), and RET on a stack pointer above 16 (assumption log 3). -/

section stack
variable {nnn : Addr12} {s : State}

theorem exec_call_of_sp_lt (h : s.sp.toNat < 16) :
    exec (.call nnn) s =
      .next (((s.setSlot (BitVec.ofNat 4 s.sp.toNat) (s.pc + 2)).setSp (s.sp + 1)).setPc (addrOf nnn)) :=
  (if_neg h.ne).trans (if_neg (lt_asymm h))

theorem exec_call_of_sp_eq (h : s.sp.toNat = 16) :
    exec (.call nnn) s = .next (haltedIn (.call nnn) s .stackOverflow none) :=
  (if_pos h).trans (s.raiseIn_eq (.call nnn) .stackOverflow none)

theorem exec_call_of_sp_gt (h : 16 < s.sp.toNat) : exec (.call nnn) s = .fault (.stackPointerOutOfRange s.sp) :=
  (if_neg h.ne').trans (if_pos h)

theorem exec_ret_of_sp_gt (h : 16 < s.sp.toNat) : exec .ret s = .fault (.stackPointerOutOfRange s.sp) :=
  (if_neg (Nat.zero_lt_of_lt h).ne').trans (if_pos h)

theorem sp_add_one_toNat (h : s.sp.toNat < 16) : (s.sp + 1).toNat = s.sp.toNat + 1 :=
  BitVec.toNat_add_of_lt (y := 1) (Nat.lt_of_le_of_lt h (by decide))

theorem sp_sub_one_toNat (h : 0 < s.sp.toNat) : (s.sp - 1).toNat = s.sp.toNat - 1 :=
  BitVec.toNat_sub_of_le (BitVec.le_def.mpr h : (1 : Byte) ≤ s.sp)

/-- The push moves SP and writes one entry. -/
theorem call_untouched (j : Nibble) (n : Byte) (w pc : Word) :
    Untouched s (((s.setSlot j w).setSp n).setPc pc) fun p => p = .stackPointer ∨ p = .slot j :=
  (((s.setSlot_untouched j w).mono fun _ => .inr).trans
    (((s.setSlot j w).setSp_untouched n).mono fun _ => .inl)).setPc pc

theorem call_cases {t : State} (h : exec (.call nnn) s = .next t) : Fails (.call nnn) s t ∨ Completes (.call nnn) s t := by
  rcases Nat.lt_trichotomy s.sp.toNat 16 with hsp | hsp | hsp
  · refine cases_of_next ((exec_call_of_sp_lt hsp).symm.trans h) ?_
    refine ⟨addrOf_eq nnn, rfl, ?_, False.elim, rfl, .inl rfl, fun j => ?_, .inr ?_⟩
    · exact (call_untouched _ _ _ _).mono fun p => Or.imp_right fun hp => ⟨_, hp⟩
    · simp only [State.setPc_slot, State.setSp_slot, State.setSlot_slot]
      split
      · exact .inr rfl
      · exact .inl rfl
    · simp only [State.setPc_sp, State.setSp_sp]
      exact (sp_add_one_toNat hsp).trans_le hsp
  · cases (exec_call_of_sp_eq hsp).symm.trans h
    exact .inl ⟨_, _, rfl, fits_of_no_info (by decide) (by decide) (by decide)⟩
  · cases (exec_call_of_sp_gt hsp).symm.trans h

theorem ret_cases {t : State} (h : exec .ret s = .next t) : Fails .ret s t ∨ Completes .ret s t := by
  rcases Nat.eq_zero_or_pos s.sp.toNat with hzero | hpos
  · cases (exec_ret_of_sp_eq_zero hzero).symm.trans h
    exact .inl ⟨_, _, rfl, fits_of_no_info (by decide) (by decide) (by decide)⟩
  · rcases Nat.lt_or_ge 16 s.sp.toNat with hgt | hle
    · cases (exec_ret_of_sp_gt hgt).symm.trans h
    · refine cases_of_next ((exec_ret_of_sp_pos hpos hle).symm.trans h) ?_
      refine ⟨rfl, rfl, (s.setSp_untouched _).setPc _, False.elim, rfl, .inl rfl, fun _ => .inl rfl, .inr ?_⟩
      have hone := sp_sub_one_toNat hpos
      simp only [State.setPc_sp, State.setSp_sp]
      omega

end stack

/-! DRW, RND, LD Vx, [I] and the rest of the instructions whose rule is their own. -/

/-- A completed draw, whatever its sprite: pixels and VF change. -/
theorem Completes.of_draw (x y n : Nibble) (s : State) (d : Blit) :
    Completes (.drw x y n) s ((s.advance.setFb d.fb).setV vF (flagOf d.collision)) where
  pc := rfl
  run := rfl
  frame := (((s.setFb_untouched_pixels d.fb).mono fun _ => .inr).trans
    (((s.setFb d.fb).setV_untouched vF _).mono fun _ => .inl)).setPc (s.pc + 2)
  flag := fun _ => by simpa using flagOf_cases d.collision
  key := rfl
  mem := .inl rfl
  slot := fun _ => .inl rfl
  sp := .inl rfl

theorem Completes.of_rnd (x : Nibble) (nn : Byte) (s : State) :
    Completes (.rnd x nn) s ((s.advance.setDraws (s.draws + 1)).setV x (s.drawByte &&& nn)) :=
  .of_frame id rfl rfl
    ((((s.setDraws_untouched _).mono fun _ => .inr).trans ((State.setV_untouched _ x _).mono fun _ => .inl)).setPc (s.pc + 2))
    rfl rfl rfl rfl

theorem readRun_length {m : Memory} {a n : Nat} {bs : List Byte} (h : Memory.readRun m a n = .ok bs) : bs.length = n := by
  by_cases hn : n = 0 ∨ a + n ≤ Config.memSize
  · rw [Memory.readRun_ok m hn] at h
    cases h
    simp
  · obtain ⟨h0, h1⟩ := not_or.mp hn
    rw [Memory.readRun_fault m h0 (by omega)] at h
    cases h

/-- The pc advance and the run of register writes commute: each writes a part that the other leaves alone. -/
theorem State.advance_setRegsFrom (s : State) (bs : List Byte) :
    s.advance.setRegsFrom 0 bs = (s.setRegsFrom 0 bs).setPc (s.pc + 2) := by
  suffices h : ∀ (bs : List Byte) (j : Nat) (s : State) (w : Word),
      (s.setPc w).setRegsFrom j bs = (s.setRegsFrom j bs).setPc w from h bs 0 s _
  intro bs
  induction bs with
  | nil => exact fun _ _ _ => rfl
  | cons b bs ih => exact fun j s w => ih (j + 1) (s.setV (BitVec.ofNat 4 j) b) w

theorem Completes.of_loadRegs {x : Nibble} {s : State} {bs : List Byte} (hlen : bs.length = rangeCount x) :
    Completes (.loadRegs x) s (s.advance.setRegsFrom 0 bs) := by
  have hframe := (State.setRegsFrom_untouched (s := s) hlen).setPc (s.pc + 2)
  rw [← State.advance_setRegsFrom] at hframe
  have h := s.advance.setRegsFrom_frame 0 bs
  refine .of_frame id ?_ ?_ hframe ?_ ?_ ?_ ?_
  all_goals
    rw [h]
    rfl

/-- EVERY INSTRUCTION that answers a next state fails or completes. -/
theorem exec_cases {i : Instr} {s t : State} (h : exec i s = .next t) : Fails i s t ∨ Completes i s t := by
  cases i with
  | cls => exact cases_of_next h (.of_frame id rfl rfl ((s.setFb_untouched_pixels _).setPc _) rfl rfl rfl rfl)
  | ret => exact ret_cases h
  | sys nnn =>
    cases h
    exact .inl ⟨_, _, rfl, fits_of_no_info (by decide) (by decide) (by decide)⟩
  | jp nnn => exact cases_of_next h (.of_setPc id (addrOf_eq nnn) rfl)
  | call nnn => exact call_cases h
  | seImm x nn => exact cases_of_next h (.of_advanceSkipIf id (by simp [pcAfter]) rfl)
  | sneImm x nn => exact cases_of_next h (.of_advanceSkipIf id (by simp [pcAfter]) rfl)
  | seReg x y => exact cases_of_next h (.of_advanceSkipIf id (by simp [pcAfter]) rfl)
  | ldImm x nn => exact cases_of_next h (.of_writeReg id rfl rfl rfl)
  | addImm x nn => exact cases_of_next h (.of_writeReg id rfl rfl rfl)
  | ldReg x y => exact cases_of_next h (.of_writeReg id rfl rfl rfl)
  | or x y => exact cases_of_next h (.of_writeReg id rfl rfl rfl)
  | and x y => exact cases_of_next h (.of_writeReg id rfl rfl rfl)
  | xor x y => exact cases_of_next h (.of_writeReg id rfl rfl rfl)
  | add x y => exact cases_of_next h (.of_writeRegFlag rfl rfl rfl)
  | sub x y => exact cases_of_next h (.of_writeRegFlag rfl rfl rfl)
  | shr x y => exact cases_of_next h (.of_writeRegFlag rfl rfl rfl)
  | subn x y => exact cases_of_next h (.of_writeRegFlag rfl rfl rfl)
  | shl x y => exact cases_of_next h (.of_writeRegFlag rfl rfl rfl)
  | sneReg x y => exact cases_of_next h (.of_advanceSkipIf id (by simp [pcAfter]) rfl)
  | ldI nnn => exact cases_of_next h (.of_setI id rfl rfl rfl)
  | jpV0 nnn => exact cases_of_next h (.of_setPc id (addrOf_add_zext16 nnn _) rfl)
  | rnd x nn => exact cases_of_next h (.of_rnd x nn s)
  | drw x y n => exact orMemoryFault_cases h (fun _ => readRun_error_le) fun _ _ => .of_draw x y n s _
  | skp x => exact withDigit_cases h (.of_advanceSkipIf id (by simp [pcAfter]) rfl)
  | sknp x =>
    refine withDigit_cases h (.of_advanceSkipIf id ?_ rfl)
    cases hk : s.isPressed ((s.V x).setWidth 4) <;> simp [pcAfter, hk]
  | ldVxDt x => exact cases_of_next h (.of_writeReg id rfl rfl rfl)
  | ldVxK x =>
    exact cases_of_next ((exec_ldVxK x s).symm.trans h) (.of_frame id rfl rfl (s.setRun_untouched _) rfl rfl rfl rfl)
  | ldDt x => exact cases_of_next h (.of_frame id rfl rfl ((s.setDt_untouched _).setPc _) rfl rfl rfl rfl)
  | ldSt x => exact cases_of_next h (.of_frame id rfl rfl ((s.setSt_untouched _).setPc _) rfl rfl rfl rfl)
  | addI x => exact cases_of_next h (.of_setI id rfl rfl rfl)
  | ldF x => exact withDigit_cases h (.of_setI id rfl rfl rfl)
  | ldB x => exact orMemoryFault_cases h (fun _ => writeRun_error_le) fun _ hm => .of_writeRun hm id rfl rfl rfl
  | storeRegs x => exact orMemoryFault_cases h (fun _ => writeRun_error_le) fun _ hm => .of_writeRun hm id rfl rfl rfl
  | loadRegs x => exact orMemoryFault_cases h (fun _ => readRun_error_le) fun _ hbs => .of_loadRegs (readRun_length hbs)

end Sys2Proof.Machine
end

section
/-! The statements about every instruction: failure, pc, run state, flag and writers. Each is read off the two ways an
instruction can end, `Fails` and `Completes`. -/

namespace Sys2Proof.Machine

section outcomes
variable {i : Instr} {s t : State}

theorem runAfter_of_running (hrun : s.run = .running) : runAfter i s = .running ∨ ∃ x, i = .ldVxK x := by
  cases i with
  | ldVxK x => exact .inr ⟨x, rfl⟩
  | _ => exact .inl hrun

theorem Completes.live (hc : Completes i s t) (hrun : s.run = .running) : t.live := by
  intro e he
  rw [hc.run] at he
  obtain h | ⟨x, rfl⟩ := runAfter_of_running (i := i) hrun
  · cases h.symm.trans he
  · cases he

theorem Fails.not_live (hf : Fails i s t) : ¬ t.live := by
  obtain ⟨code, info, rfl, _⟩ := hf
  exact fun hlive => hlive _ rfl

theorem Completes.blocked_iff (hc : Completes i s t) (hrun : s.run = .running) (x : Nibble) :
    t.run = .blockedOnKey x ↔ i = .ldVxK x := by
  rw [hc.run]
  obtain h | ⟨y, rfl⟩ := runAfter_of_running (i := i) hrun
  · rw [h]
    refine ⟨nofun, ?_⟩
    rintro rfl
    cases h
  · simp [runAfter]

/-- The part that an instruction changes is in its footprint. -/
theorem Completes.footprint_of_not_same (hc : Completes i s t) {p : Part} (hp : ¬ p.same s t) : footprint i p :=
  not_not.mp fun h => hp (hc.frame p h)

/-- A failure changes no part but the run state. -/
theorem Fails.untouched (hf : Fails i s t) : Untouched s t fun p => p = .runState := by
  obtain ⟨code, info, rfl, _⟩ := hf
  exact s.setRun_untouched _

/-- A part other than the run state that an instruction changes is in its footprint, and the keys stay. -/
theorem footprint_of_not_same (h : exec i s = .next t) {p : Part} (hrun : p ≠ .runState) (hp : ¬ p.same s t) :
    footprint i p := by
  obtain hf | hc := exec_cases h
  · exact absurd (hf.untouched p hrun) hp
  · exact hc.footprint_of_not_same hp

theorem same_of_not_footprint (h : exec i s = .next t) {p : Part} (hrun : p ≠ .runState) (hp : ¬ footprint i p) :
    p.same s t :=
  not_not.mp fun hne => hp (footprint_of_not_same h hrun hne)

theorem exec_key (h : exec i s = .next t) : t.key = s.key := by
  obtain ⟨code, info, rfl, _⟩ | hc := exec_cases h
  · rfl
  · exact hc.key

/-- A register in a footprint is the destination or, for the six that write a flag, VF. -/
theorem destination_or_flag_of_footprint {r : Nibble} (h : footprint i (.reg r)) :
    destination i r ∨ (writesFlag i ∧ r = vF) := by
  cases i <;> simp_all [footprint, destination, writesFlag]

/-! Which footprints hold a part of each kind. -/

theorem writer_of_byte {a : Nat} (h : footprint i (.byte a)) : ∃ x, i = .ldB x ∨ i = .storeRegs x := by
  cases i with
  | ldB x => exact ⟨x, .inl rfl⟩
  | storeRegs x => exact ⟨x, .inr rfl⟩
  | _ => simp [footprint] at h

theorem writer_of_slot {j : Nibble} (h : footprint i (.slot j)) : ∃ nnn, i = .call nnn := by
  cases i with
  | call nnn => exact ⟨nnn, rfl⟩
  | _ => simp [footprint] at h

theorem writer_of_stackPointer (h : footprint i (.stackPointer)) : i = .ret ∨ ∃ nnn, i = .call nnn := by
  cases i with
  | ret => exact .inl rfl
  | call nnn => exact .inr ⟨nnn, rfl⟩
  | _ => simp [footprint] at h

theorem writer_of_pixel {r : Fin 32} {c : Fin 64} (h : footprint i (.pixel r c)) : i = .cls ∨ ∃ x y n, i = .drw x y n := by
  cases i with
  | cls => exact .inl rfl
  | drw x y n => exact .inr ⟨x, y, n, rfl⟩
  | _ => simp [footprint] at h

theorem writer_of_index (h : footprint i (.index)) : (∃ nnn, i = .ldI nnn) ∨ (∃ x, i = .addI x) ∨ ∃ x, i = .ldF x := by
  cases i with
  | ldI nnn => exact .inl ⟨nnn, rfl⟩
  | addI x => exact .inr (.inl ⟨x, rfl⟩)
  | ldF x => exact .inr (.inr ⟨x, rfl⟩)
  | _ => simp [footprint] at h

theorem writer_of_delayTimer (h : footprint i (.delayTimer)) : ∃ x, i = .ldDt x := by
  cases i with
  | ldDt x => exact ⟨x, rfl⟩
  | _ => simp [footprint] at h

theorem writer_of_soundTimer (h : footprint i (.soundTimer)) : ∃ x, i = .ldSt x := by
  cases i with
  | ldSt x => exact ⟨x, rfl⟩
  | _ => simp [footprint] at h

theorem writer_of_draws (h : footprint i (.draws)) : ∃ x nn, i = .rnd x nn := by
  cases i with
  | rnd x nn => exact ⟨x, nn, rfl⟩
  | _ => simp [footprint] at h

theorem no_writer_of_pending : ¬ footprint i .pending := by
  cases i <;> simp [footprint]

end outcomes

/-! The statements. -/

/-- Settles O14: an instruction that completes leaves a live block, so that a halt is a failure, which changes `run`
alone. -/
theorem fatalErrorChangesOnlyRun : Obligations.FatalErrorChangesOnlyRun := by
  intro i s t e hrun h he
  obtain ⟨code, info, rfl, hfits⟩ | hc := exec_cases h
  · cases he
    exact ⟨rfl, rfl, rfl, hfits⟩
  · exact absurd he (hc.live hrun e)

/-- Settles O15: a live block means the instruction completed, a halted one that it failed. -/
theorem pcAfterEveryInstruction : Obligations.PcAfterEveryInstruction := by
  intro i s t hrun h
  obtain hf | hc := exec_cases h
  · refine ⟨fun hlive => absurd hlive hf.not_live, fun _ => ?_⟩
    obtain ⟨code, info, rfl, _⟩ := hf
    rfl
  · exact ⟨fun _ => hc.pc, fun hhalted => absurd (hc.live hrun) hhalted⟩

/-- Settles O17: by the footprints, whose registers are destinations or the flag of the six. -/
theorem onlySixInstructionsWriteTheFlag : Obligations.OnlySixInstructionsWriteTheFlag := by
  intro i s t h
  refine ⟨fun hflag hdest => ?_, fun hflag hrun hlive => ?_, fun r hr hdest => ?_⟩
  · refine same_of_not_footprint (p := .reg vF) h nofun fun hfoot => ?_
    obtain hd | hw := destination_or_flag_of_footprint hfoot
    · exact hdest hd
    · exact hflag hw.1
  · obtain hf | hc := exec_cases h
    · exact absurd hlive hf.not_live
    · exact hc.flag hflag
  · refine same_of_not_footprint (p := .reg r) h nofun fun hfoot => ?_
    obtain hd | hw := destination_or_flag_of_footprint hfoot
    · exact hdest hd
    · exact hr hw.2

/-- Settles O18: a changed part is in the footprint, and for each kind of part the footprints that hold it are those of its
writers. -/
theorem eachPartHasItsWriters : Obligations.EachPartHasItsWriters := by
  intro i s t h
  have hfoot {p : Part} (hrun : p ≠ .runState) (hp : ¬ p.same s t) : footprint i p := footprint_of_not_same h hrun hp
  refine ⟨?_, ?_, ?_, ?_, ?_, ?_, ?_, ?_, exec_key h, ?_⟩
  · exact fun ⟨a, ha⟩ => writer_of_byte (hfoot (p := .byte a) nofun ha)
  · exact fun ⟨j, hj⟩ => writer_of_slot (hfoot (p := .slot j) nofun hj)
  · exact fun hsp => writer_of_stackPointer (hfoot (p := .stackPointer) nofun hsp)
  · exact fun ⟨r, c, hrc⟩ => writer_of_pixel (hfoot (p := .pixel r c) nofun hrc)
  · exact fun hi => writer_of_index (hfoot (p := .index) nofun hi)
  · exact fun hdt => writer_of_delayTimer (hfoot (p := .delayTimer) nofun hdt)
  · exact fun hst => writer_of_soundTimer (hfoot (p := .soundTimer) nofun hst)
  · exact fun hdraws => writer_of_draws (hfoot (p := .draws) nofun hdraws)
  · exact same_of_not_footprint (p := .pending) h nofun no_writer_of_pending

end Sys2Proof.Machine
end

section
/-! The statements about a cycle, a host action and a step: which cycles halt, what a host action can do, and the two
invariants that every step keeps. -/

namespace Sys2Proof.Machine

/-! The cycles that run no instruction (40_cycle.md R90, R91, R99). -/

theorem cycle_of_fetch_error {s : State} (hrun : s.run = .running) (hpc : 4096 ≤ s.pc.toNat + 1) :
    cycle s = .next { s with run := .halted ⟨.memoryFault, s.pc, none, some (max s.pc.toNat 4096)⟩ } := by
  simp only [cycle, hrun, runningCycle, State.fetch_error hpc, State.raise_eq]

theorem executeWord_of_illegal {w : Word} (h : decodeWord w = none) (s : State) :
    executeWord w s = .next { s with run := .halted ⟨.decodeError, s.pc, some w, none⟩ } := by
  simp only [executeWord, h, State.raise_eq]

theorem cycle_of_halted {s : State} {e : ErrorRecord} (h : s.run = .halted e) : cycle s = .next s := by
  simp only [cycle, h]

theorem State.tick_of_halted {s : State} {e : ErrorRecord} (h : s.run = .halted e) : s.tick = s :=
  State.tick_of_not_live fun hlive => hlive e h

theorem State.setKey_of_halted {s : State} {e : ErrorRecord} (h : s.run = .halted e) (k : Nibble) (p : Bool) :
    s.setKey k p = s := by
  simp only [State.setKey, h]

theorem perform_setKey_of_lt {k : Nat} (hk : k < 16) (p : Bool) (s : State) :
    perform (.setKey k p) s = .next (s.setKey (BitVec.ofNat 4 k) p) :=
  if_pos hk

theorem perform_setKey_of_ge {k : Nat} (hk : 16 ≤ k) (p : Bool) (s : State) :
    perform (.setKey k p) s = .refused (.keyIndexOutOfRange k) :=
  if_neg hk.not_gt

/-- Settles O6: both clauses are the fetch that leaves memory, whose fault names the larger of the pc and 4096. -/
theorem fetchOutsideMemoryHalts : Obligations.FetchOutsideMemoryHalts := by
  refine fun s hrun => ⟨fun hpc => ?_, fun hpc => ?_⟩
  · rw [cycle_of_fetch_error hrun (by omega), max_eq_left hpc]
  · rw [cycle_of_fetch_error hrun (by omega), hpc]
    rfl

/-- Settles O7: the fetch inside memory hands the word to decode, which knows no instruction for it. -/
theorem illegalWordHalts : Obligations.IllegalWordHalts :=
  fun s hrun hpc hillegal => (cycle_of_running hrun hpc).trans (executeWord_of_illegal hillegal s)

/-- Settles O9: each of the three looks at `run` first. -/
theorem haltedBlockIgnoresTheHost : Obligations.HaltedBlockIgnoresTheHost := by
  refine fun s e hrun => ⟨cycle_of_halted hrun, congrArg _ (State.tick_of_halted hrun), fun k p hk => ?_⟩
  rw [perform_setKey_of_lt hk, State.setKey_of_halted hrun]

/-! All that a cycle and a host action can do. -/

/-- A cycle changes nothing, faults at the fetch, meets an illegal word, or runs an instruction that lies inside memory. -/
theorem cycle_cases {s t : State} (h : cycle s = .next t) :
    t = s ∨
    (s.run = .running ∧ ∃ e : ErrorRecord, e.pc = s.pc ∧ e.fits ∧ t = s.setRun (.halted e)) ∨
    (s.run = .running ∧ s.pc.toNat + 1 < 4096 ∧ ∃ i, exec i s = .next t) := by
  cases hrun : s.run with
  | blockedOnKey x =>
    cases (cycle_of_blocked hrun).symm.trans h
    exact .inl rfl
  | halted e =>
    cases (cycle_of_halted hrun).symm.trans h
    exact .inl rfl
  | running =>
    by_cases hpc : s.pc.toNat + 1 < 4096
    · have hx := (cycle_of_running hrun hpc).symm.trans h
      generalize wordOfBytes (s.byteAt s.pc.toNat) (s.byteAt (s.pc.toNat + 1)) = w at hx
      cases hi : decodeWord w with
      | some i => exact .inr (.inr ⟨rfl, hpc, i, (executeWord_of_decode hi s).symm.trans hx⟩)
      | none =>
        cases (executeWord_of_illegal hi s).symm.trans hx
        exact .inr (.inl ⟨rfl, _, rfl, fits_of_no_info (by decide) (by decide) (by decide), rfl⟩)
    · cases (cycle_of_fetch_error hrun (by omega)).symm.trans h
      exact .inr (.inl ⟨rfl, _, rfl, fits_of_memoryFault (le_max_right _ _), rfl⟩)

/-- All that a host action can answer, the reads being the actions that change nothing. -/
theorem perform_cases {a : HostAction} {s t : State} (h : perform a s = .next t) :
    t = s ∨ (a = .cycle ∧ cycle s = .next t) ∨ (a = .tick ∧ t = s.tick) ∨
    (∃ k p, a = .setKey k p ∧ k < 16 ∧ t = s.setKey (BitVec.ofNat 4 k) p) ∨
    (∃ rom, a = .restart rom ∧ s.restart rom = .next t) := by
  cases a with
  | cycle => exact .inr (.inl ⟨rfl, h⟩)
  | tick =>
    cases h
    exact .inr (.inr (.inl ⟨rfl, rfl⟩))
  | setKey k p =>
    by_cases hk : k < 16
    · cases (perform_setKey_of_lt hk p s).symm.trans h
      exact .inr (.inr (.inr (.inl ⟨k, p, rfl, hk, rfl⟩)))
    · cases (perform_setKey_of_ge (by omega) p s).symm.trans h
  | restart rom => exact .inr (.inr (.inr (.inr ⟨rom, rfl, h⟩)))
  | readFramebuffer =>
    cases h
    exact .inl rfl
  | readSound =>
    cases h
    exact .inl rfl
  | readError =>
    cases h
    exact .inl rfl

/-- All that a restart can answer: the boot block of a ROM, with the model's own two fields kept (70_reset_and_hazards.md
R263, assumption logs 4, 5). -/
theorem State.restart_next {s t : State} {rom : List Byte} (h : s.restart rom = .next t) :
    ∃ m, Memory.wf m = true ∧ t = ((State.reset.setMem m).setDraws s.draws).setPending s.pending := by
  obtain ⟨_, m, _, hwf, hload⟩ | ⟨_, hload⟩ := load_cases rom
  · simp only [State.restart, hload] at h
    cases h
    exact ⟨m, hwf, rfl⟩
  · simp only [State.restart, hload] at h
    cases h

/-- A step performs some host action on the state before it, the list of actions to come apart. -/
theorem step_cases {s t : State} (h : step s = .next t) : ∃ a p, perform a (s.setPending p) = .next t := by
  cases hp : s.pending with
  | nil => exact ⟨.cycle, s.pending, (step_of_pending_nil hp).symm.trans h⟩
  | cons a rest => exact ⟨a, rest, (step_of_pending_cons hp).symm.trans h⟩

/-! The invariant of memory, SP and the error record. -/

theorem State.Inv.of_live {s : State} (hmem : Memory.wf s.mem = true) (hsp : s.sp.toNat ≤ 16) (hlive : s.live) : s.Inv :=
  ⟨hmem, hsp, fun e he => absurd he (hlive e)⟩

theorem State.Inv.setRun_halted {s : State} {e : ErrorRecord} (hs : s.Inv) (hpc : e.pc = s.pc) (hfits : e.fits) :
    (s.setRun (.halted e)).Inv := by
  refine ⟨hs.1, hs.2.1, fun e' he => ?_⟩
  cases he
  exact ⟨hpc, hfits⟩

/-- The invariant speaks of memory, SP, pc and run alone. -/
theorem State.Inv.congr {s t : State} (hs : s.Inv) (hmem : t.mem = s.mem) (hsp : t.sp = s.sp) (hrun : t.run = s.run)
    (hpc : t.pc = s.pc) : t.Inv := by
  unfold State.Inv
  rw [hmem, hsp, hrun, hpc]
  exact hs

theorem Completes.inv {i : Instr} {s t : State} (hc : Completes i s t) (hrun : s.run = .running) (hs : s.Inv) : t.Inv := by
  obtain ⟨hwf, hsp, _⟩ := hs
  refine .of_live ?_ ?_ (hc.live hrun)
  · obtain hmem | ⟨a, bs, hmem⟩ := hc.mem
    · rwa [hmem]
    · exact Memory.writeRun_wf hwf hmem
  · obtain h | h := hc.sp
    · rwa [h]
    · exact h

theorem cycle_inv {s t : State} (hs : s.Inv) (h : cycle s = .next t) : t.Inv := by
  obtain rfl | ⟨_, e, hpc, hfits, rfl⟩ | ⟨hrun, _, i, hi⟩ := cycle_cases h
  · exact hs
  · exact hs.setRun_halted hpc hfits
  · obtain ⟨code, info, rfl, hfits⟩ | hc := exec_cases hi
    · exact hs.setRun_halted rfl hfits
    · exact hc.inv hrun hs

theorem State.tick_inv {s : State} (hs : s.Inv) : s.tick.Inv := by
  obtain h | h := s.tick_eq
  · rwa [h]
  · rw [h]
    exact hs.congr rfl rfl rfl rfl

theorem State.setKey_inv {s : State} (hs : s.Inv) (k : Nibble) (p : Bool) : (s.setKey k p).Inv := by
  obtain ⟨_, _, h⟩ | ⟨x, _, _, _, h⟩ | ⟨h, _⟩ := s.setKey_cases k p
  · rwa [h]
  · rw [h]
    exact .of_live hs.1 hs.2.1 nofun
  · rw [h]
    exact hs.congr rfl rfl rfl rfl

theorem State.reset_live : State.reset.live := nofun

theorem restart_inv {s t : State} {rom : List Byte} (h : s.restart rom = .next t) : t.Inv := by
  obtain ⟨m, hwf, rfl⟩ := State.restart_next h
  exact .of_live hwf (by decide : State.reset.sp.toNat ≤ 16) State.reset_live

/-- Settles O12: the invariant does not read the list of host actions, and each host action keeps it. -/
theorem stepKeepsTheInvariant : Obligations.StepKeepsTheInvariant := by
  intro s t hs h
  obtain ⟨a, p, h⟩ := step_cases h
  have hs : (s.setPending p).Inv := hs
  obtain rfl | ⟨_, h⟩ | ⟨_, rfl⟩ | ⟨k, b, _, _, rfl⟩ | ⟨rom, _, h⟩ := perform_cases h
  · exact hs
  · exact cycle_inv hs h
  · exact State.tick_inv hs
  · exact State.setKey_inv hs _ b
  · exact restart_inv h

/-! The reach of the pc. -/

theorem word_add_toNat {w : Word} {n : Nat} (hw : w.toNat ≤ 0xFFE) (hn : n ≤ 4) :
    (w + BitVec.ofNat 16 n).toNat = w.toNat + n := by
  rw [BitVec.toNat_add, BitVec.toNat_ofNat]
  omega

/-- The largest pc of each kind: a skip, a return, a jump and a jump with V0 (10_state.md R25). -/
theorem pcAfter_toNat_le (i : Instr) {s : State} (hpc : s.pc.toNat ≤ 0xFFE) (hslot : ∀ j, (s.slot j).toNat ≤ 0x1000) :
    (pcAfter i s).toNat ≤ 0x10FE := by
  have h2 : (s.pc + 2).toNat = s.pc.toNat + 2 := word_add_toNat hpc (by decide)
  have h4 : (s.pc + 4).toNat = s.pc.toNat + 4 := word_add_toNat hpc (by decide)
  cases i with
  | ret => exact (hslot _).trans (by decide)
  | jp nnn =>
    have := nnn.isLt
    simp only [pcAfter, BitVec.toNat_ofNat]
    omega
  | call nnn =>
    have := nnn.isLt
    simp only [pcAfter, BitVec.toNat_ofNat]
    omega
  | jpV0 nnn =>
    have := nnn.isLt
    have := (s.V 0).isLt
    simp only [pcAfter, BitVec.toNat_ofNat]
    omega
  | seImm x nn => simp only [pcAfter]; split <;> omega
  | sneImm x nn => simp only [pcAfter]; split <;> omega
  | seReg x y => simp only [pcAfter]; split <;> omega
  | sneReg x y => simp only [pcAfter]; split <;> omega
  | skp x => simp only [pcAfter]; split <;> omega
  | sknp x => simp only [pcAfter]; split <;> omega
  | _ => simp only [pcAfter]; omega

/-- The reach speaks of pc, stack and run alone. -/
theorem State.pcInReach.congr {s t : State} (hs : s.pcInReach) (hpc : t.pc = s.pc) (hstack : t.stack = s.stack)
    (hrun : t.run = s.run) : t.pcInReach := by
  unfold State.pcInReach State.slot
  rw [hpc, hstack, hrun]
  exact hs

theorem State.pcInReach.setRun_halted {s : State} (hs : s.pcInReach) (e : ErrorRecord) :
    (s.setRun (.halted e)).pcInReach :=
  ⟨hs.1, hs.2.1, nofun⟩

theorem Completes.pcInReach {i : Instr} {s t : State} (hc : Completes i s t) (hrun : s.run = .running)
    (hpc : s.pc.toNat ≤ 0xFFE) (hslot : ∀ j, (s.slot j).toNat ≤ 0x1000) : t.pcInReach := by
  refine ⟨?_, fun j => ?_, fun x hx => ?_⟩
  · rw [hc.pc]
    exact pcAfter_toNat_le i hpc hslot
  · obtain h | h := hc.slot j
    · exact h ▸ hslot j
    · have h2 : (s.pc + 2).toNat = s.pc.toNat + 2 := word_add_toNat hpc (by decide)
      rw [h, h2]
      omega
  · obtain rfl := (hc.blocked_iff hrun x).mp hx
    rw [hc.pc]
    exact hpc

theorem cycle_pcInReach {s t : State} (hs : s.pcInReach) (h : cycle s = .next t) : t.pcInReach := by
  obtain rfl | ⟨_, e, _, _, rfl⟩ | ⟨hrun, hpc, i, hi⟩ := cycle_cases h
  · exact hs
  · exact hs.setRun_halted e
  · obtain ⟨code, info, rfl, _⟩ | hc := exec_cases hi
    · exact hs.setRun_halted _
    · exact hc.pcInReach hrun (by omega) hs.2.1

theorem State.tick_pcInReach {s : State} (hs : s.pcInReach) : s.tick.pcInReach := by
  obtain h | h := s.tick_eq
  · rwa [h]
  · rw [h]
    exact hs.congr rfl rfl rfl

theorem State.setKey_pcInReach {s : State} (hs : s.pcInReach) (k : Nibble) (p : Bool) : (s.setKey k p).pcInReach := by
  have ⟨_, hslot, hwait⟩ := hs
  obtain ⟨_, _, h⟩ | ⟨x, hrun, _, _, h⟩ | ⟨h, _⟩ := s.setKey_cases k p
  · rwa [h]
  · have hpc := hwait x hrun
    have h2 : (s.pc + 2).toNat = s.pc.toNat + 2 := word_add_toNat hpc (by decide)
    rw [h]
    exact ⟨(show (s.pc + 2).toNat ≤ 0x10FE by omega), hslot, nofun⟩
  · rw [h]
    exact hs.congr rfl rfl rfl

theorem State.reset_slot (j : Nibble) : State.reset.slot j = 0 := by
  simp [State.slot, State.reset]

theorem State.reset_pcInReach : State.reset.pcInReach := by
  refine ⟨by decide, fun j => ?_, nofun⟩
  rw [State.reset_slot]
  decide

theorem restart_pcInReach {s t : State} {rom : List Byte} (h : s.restart rom = .next t) : t.pcInReach := by
  obtain ⟨m, _, rfl⟩ := State.restart_next h
  exact State.reset_pcInReach.congr rfl rfl rfl

/-- Settles O13: only a cycle and the end of a key wait move the pc of a block, each from an instruction that lies inside
memory. -/
theorem stepKeepsThePcInReach : Obligations.StepKeepsThePcInReach := by
  intro s t hs h
  obtain ⟨a, p, h⟩ := step_cases h
  have hs : (s.setPending p).pcInReach := hs
  obtain rfl | ⟨_, h⟩ | ⟨_, rfl⟩ | ⟨k, b, _, _, rfl⟩ | ⟨rom, _, h⟩ := perform_cases h
  · exact hs
  · exact cycle_pcInReach hs h
  · exact State.tick_pcInReach hs
  · exact State.setKey_pcInReach hs _ b
  · exact restart_pcInReach h

/-- Settles O11: the boot block runs, with memory that lists nothing, SP 0 and every stack entry 0. -/
theorem resetMeetsTheInvariants : Obligations.ResetMeetsTheInvariants :=
  ⟨.of_live Memory.wf_nil (by decide) State.reset_live, State.reset_pcInReach⟩

end Sys2Proof.Machine
end

section
/-! The statements about which parts of the state an instruction does not read: the keys, ST, stale stack entries, and the
host's list of actions. One lemma changes all four at once. -/

namespace Sys2Proof.Machine

/-- A change of the parts of the state that few instructions read or none does. -/
structure UnreadChange where
  key : Vector Bool 16 → Vector Bool 16
  st : Byte → Byte
  stack : Vector Word 16 → Vector Word 16
  pending : List HostAction → List HostAction

/-- The state with these parts changed. -/
def UnreadChange.on (f : UnreadChange) (s : State) : State :=
  { s with key := f.key s.key, st := f.st s.st, stack := f.stack s.stack, pending := f.pending s.pending }

/-! The shared operations run the same on a changed state, when what they go on with does. -/

section shared
variable (f : UnreadChange) (s : State) (i : Instr)

theorem UnreadChange.orMemoryFault {α : Type} (access : Except Nat α) {go go' : α → State}
    (hgo : ∀ x, go' x = f.on (go x)) :
    (f.on s).orMemoryFault i access go' = mapNext f.on (s.orMemoryFault i access go) := by
  cases access with
  | error a => rfl
  | ok x => exact congrArg Host.Outcome.next (hgo x)

theorem UnreadChange.withDigit (x : Nibble) {go go' : Nibble → State} (hgo : ∀ d, go' d = f.on (go d)) :
    (f.on s).withDigit i x go' = mapNext f.on (s.withDigit i x go) := by
  have hx : (f.on s).digit x = s.digit x := rfl
  unfold State.withDigit
  rw [hx]
  cases s.digit x with
  | none => rfl
  | some d => exact congrArg Host.Outcome.next (hgo d)

theorem UnreadChange.advanceSkipIf (c : Bool) : (f.on s).advanceSkipIf c = f.on (s.advanceSkipIf c) := by
  cases c <;> rfl

theorem UnreadChange.setRegsFrom (j : Nat) (bs : List Byte) : (f.on s).setRegsFrom j bs = f.on (s.setRegsFrom j bs) := by
  induction bs generalizing s j with
  | nil => rfl
  | cons b bs ih => exact ih (s.setV (BitVec.ofNat 4 j) b) (j + 1)

/-! CALL and RET read the stack, so that it may not change; each case of SP is the same on both states. -/

theorem UnreadChange.exec_ret (hid : f.stack = id) : exec .ret (f.on s) = mapNext f.on (exec .ret s) := by
  obtain ⟨k, b, w, p⟩ := f
  subst hid
  rcases Nat.eq_zero_or_pos s.sp.toNat with hzero | hpos
  · rw [exec_ret_of_sp_eq_zero hzero]
    exact exec_ret_of_sp_eq_zero hzero
  · rcases Nat.lt_or_ge 16 s.sp.toNat with hgt | hle
    · rw [exec_ret_of_sp_gt hgt]
      exact exec_ret_of_sp_gt hgt
    · rw [exec_ret_of_sp_pos hpos hle]
      exact exec_ret_of_sp_pos hpos hle

theorem UnreadChange.exec_call (hid : f.stack = id) (nnn : Addr12) :
    exec (.call nnn) (f.on s) = mapNext f.on (exec (.call nnn) s) := by
  obtain ⟨k, b, w, p⟩ := f
  subst hid
  rcases Nat.lt_trichotomy s.sp.toNat 16 with hlt | heq | hgt
  · rw [exec_call_of_sp_lt hlt]
    exact exec_call_of_sp_lt hlt
  · rw [exec_call_of_sp_eq heq]
    exact exec_call_of_sp_eq heq
  · rw [exec_call_of_sp_gt hgt]
    exact exec_call_of_sp_gt hgt

end shared

/-- An instruction runs the same on a changed state and carries the change along, where it does not read what changed. -/
theorem exec_on (f : UnreadChange) (s : State) {i : Instr} (hkey : (∀ x, i ≠ .skp x ∧ i ≠ .sknp x) ∨ f.key = id)
    (hst : (∀ x, i ≠ .ldSt x) ∨ f.st = id) (hstack : ((∀ nnn, i ≠ .call nnn) ∧ i ≠ .ret) ∨ f.stack = id) :
    exec i (f.on s) = mapNext f.on (exec i s) := by
  cases i with
  | ret =>
    have hid : f.stack = id := hstack.resolve_left fun h => h.2 rfl
    exact f.exec_ret s hid
  | call nnn =>
    have hid : f.stack = id := hstack.resolve_left fun h => h.1 nnn rfl
    exact f.exec_call s hid nnn
  | skp x =>
    have hid : f.key = id := hkey.resolve_left fun h => (h x).1 rfl
    obtain ⟨k, b, w, p⟩ := f
    subst hid
    exact UnreadChange.withDigit _ s _ x fun d => UnreadChange.advanceSkipIf _ s (s.isPressed d)
  | sknp x =>
    have hid : f.key = id := hkey.resolve_left fun h => (h x).2 rfl
    obtain ⟨k, b, w, p⟩ := f
    subst hid
    exact UnreadChange.withDigit _ s _ x fun d => UnreadChange.advanceSkipIf _ s (!s.isPressed d)
  | ldSt x =>
    have hid : f.st = id := hst.resolve_left fun h => h x rfl
    obtain ⟨k, b, w, p⟩ := f
    subst hid
    rfl
  | seImm x nn => exact congrArg Host.Outcome.next (f.advanceSkipIf s _)
  | sneImm x nn => exact congrArg Host.Outcome.next (f.advanceSkipIf s _)
  | seReg x y => exact congrArg Host.Outcome.next (f.advanceSkipIf s _)
  | sneReg x y => exact congrArg Host.Outcome.next (f.advanceSkipIf s _)
  | ldF x => exact f.withDigit s _ x fun _ => rfl
  | ldB x => exact f.orMemoryFault s _ _ fun _ => rfl
  | storeRegs x => exact f.orMemoryFault s _ _ fun _ => rfl
  | loadRegs x => exact f.orMemoryFault s _ _ fun bs => f.setRegsFrom s.advance 0 bs
  | drw x y n => exact f.orMemoryFault s _ _ fun _ => rfl
  | _ => rfl

/-! The statements. -/

/-- Settles O19: the change of the keypad alone. -/
theorem keysMatterToKeyTestsOnly : Obligations.KeysMatterToKeyTestsOnly :=
  fun _ s key' hkey => exec_on ⟨fun _ => key', id, id, id⟩ s (.inl hkey) (.inr rfl) (.inr rfl)

/-- Settles O20: the change of ST alone; LD ST, Vx overwrites it. -/
theorem noInstructionReadsTheSoundTimer : Obligations.NoInstructionReadsTheSoundTimer := by
  refine fun i s b => ⟨fun hst => ?_, ?_⟩
  · exact exec_on ⟨id, fun _ => b, id, id⟩ s (.inr rfl) (.inl hst) (.inr rfl)
  · rintro x rfl
    rfl

/-! CALL and RET on two stacks that agree below SP. -/

theorem sameButStale.sp_eq {s t : State} (h : sameButStale s t) : t.sp = s.sp := by
  obtain ⟨ht, _⟩ := h
  rw [ht]

theorem sameButStale.pc_eq {s t : State} (h : sameButStale s t) : t.pc = s.pc := by
  obtain ⟨ht, _⟩ := h
  rw [ht]

theorem nibble_ofNat_toNat {n : Nat} (h : n < 16) : (BitVec.ofNat 4 n).toNat = n :=
  (BitVec.toNat_ofNat n 4).trans (Nat.mod_eq_of_lt h)

theorem sameButStale.haltedIn {s t : State} (h : sameButStale s t) (i : Instr) (code : ErrorCode) (info : Option Nat) :
    sameButStale (haltedIn i s code info) (haltedIn i t code info) := by
  obtain ⟨ht, hslot⟩ := h
  refine ⟨?_, hslot⟩
  rw [ht]
  rfl

theorem sameButStale.exec_call {s t : State} (h : sameButStale s t) (nnn : Addr12) :
    outcomesSameButStale (exec (.call nnn) s) (exec (.call nnn) t) := by
  have hsp := h.sp_eq
  rcases Nat.lt_trichotomy s.sp.toNat 16 with hlt | heq | hgt
  · rw [exec_call_of_sp_lt hlt, exec_call_of_sp_lt (hsp ▸ hlt), hsp, h.pc_eq]
    obtain ⟨ht, hslot⟩ := h
    refine ⟨?_, fun j hj => ?_⟩
    · rw [ht]
      rfl
    · have hj : j.toNat < s.sp.toNat + 1 := hj.trans_eq (sp_add_one_toNat hlt)
      have hnew : j = BitVec.ofNat 4 s.sp.toNat ∨ j.toNat < s.sp.toNat := by
        refine (Nat.lt_succ_iff_lt_or_eq.mp hj).symm.imp_left fun e => ?_
        exact BitVec.eq_of_toNat_eq (e.trans (nibble_ofNat_toNat hlt).symm)
      obtain rfl | hold := hnew
      · simp
      · simp [hslot j hold]
  · rw [exec_call_of_sp_eq heq, exec_call_of_sp_eq (hsp ▸ heq)]
    exact h.haltedIn _ _ _
  · rw [exec_call_of_sp_gt hgt, exec_call_of_sp_gt (hsp ▸ hgt), hsp]
    rfl

theorem sameButStale.exec_ret {s t : State} (h : sameButStale s t) :
    outcomesSameButStale (exec .ret s) (exec .ret t) := by
  have hsp := h.sp_eq
  rcases Nat.eq_zero_or_pos s.sp.toNat with hzero | hpos
  · rw [exec_ret_of_sp_eq_zero hzero, exec_ret_of_sp_eq_zero (hsp ▸ hzero)]
    exact h.haltedIn _ _ _
  · rcases Nat.lt_or_ge 16 s.sp.toNat with hgt | hle
    · rw [exec_ret_of_sp_gt hgt, exec_ret_of_sp_gt (hsp ▸ hgt), hsp]
      rfl
    · have htop : (BitVec.ofNat 4 (s.sp.toNat - 1)).toNat = s.sp.toNat - 1 := nibble_ofNat_toNat (by omega)
      rw [exec_ret_of_sp_pos hpos hle, exec_ret_of_sp_pos (hsp ▸ hpos) (hsp ▸ hle), hsp]
      obtain ⟨ht, hslot⟩ := h
      rw [hslot _ (by omega)]
      refine ⟨?_, fun j hj => hslot j ?_⟩
      · rw [ht]
        rfl
      · have hj : j.toNat < s.sp.toNat - 1 := hj.trans_eq (sp_sub_one_toNat hpos)
        omega

/-- What the other instructions answer on two such stacks: they keep SP and the stack. -/
theorem outcomesSameButStale_of_keeps {s : State} {w : Vector Word 16} {r : Result}
    (hslot : ∀ j : Nibble, j.toNat < s.sp.toNat → (w[j.toNat]'j.isLt) = s.slot j)
    (hkeeps : ∀ u, r = .next u → u.sp = s.sp ∧ ∀ j, u.slot j = s.slot j) :
    outcomesSameButStale r (mapNext (fun u => { u with stack := w }) r) := by
  cases r with
  | next u =>
    obtain ⟨hsp, hstack⟩ := hkeeps u rfl
    refine ⟨rfl, fun j hj => ?_⟩
    rw [hstack]
    exact hslot j (hsp ▸ hj)
  | fault e => exact rfl
  | refused e => exact rfl

/-- Settles O21: CALL and RET read SP and the entries below it alone; every other instruction carries the stack along
unread and unchanged. -/
theorem staleStackEntriesAreNeverRead : Obligations.StaleStackEntriesAreNeverRead := by
  intro i s t h
  by_cases hcall : ∃ nnn, i = .call nnn
  · obtain ⟨nnn, rfl⟩ := hcall
    exact h.exec_call nnn
  by_cases hret : i = .ret
  · subst hret
    exact h.exec_ret
  obtain ⟨ht, hslot⟩ := h
  have hstack : (∀ nnn, i ≠ .call nnn) ∧ i ≠ .ret := ⟨fun nnn e => hcall ⟨nnn, e⟩, hret⟩
  have hrun := exec_on ⟨id, id, fun _ => t.stack, id⟩ s (i := i) (.inr rfl) (.inr rfl) (.inl hstack)
  have ht' : t = UnreadChange.on ⟨id, id, fun _ => t.stack, id⟩ s := ht
  rw [ht', hrun]
  refine outcomesSameButStale_of_keeps hslot fun u hu => ⟨?_, fun j => ?_⟩
  · refine same_of_not_footprint (p := .stackPointer) hu nofun fun hfoot => ?_
    exact (writer_of_stackPointer hfoot).elim hret hcall
  · exact same_of_not_footprint (p := .slot j) hu nofun fun hfoot => hcall (writer_of_slot hfoot)

end Sys2Proof.Machine
end

section
/-! The statements about the host: ticks, key changes and the end of a key wait, the run states, load and restart, the boot
state, and what the host reads. -/

namespace Sys2Proof.Machine

/-! Ticks (60_exceptions.md R229, R230). -/

theorem State.tick_live {s : State} (h : s.live) : s.tick.live := by
  intro e he
  exact h e (s.tick_run.symm.trans he)

theorem performAll_cons_of_next {a : HostAction} {rest : List HostAction} {s t : State} (h : perform a s = .next t) :
    performAll (a :: rest) s = performAll rest t := by
  simp only [performAll, h]

/-- Settles O54, by induction on the number of ticks: each counts both timers down by one and leaves a live block live. -/
theorem ticksStopAtZero : Obligations.TicksStopAtZero := by
  intro n
  induction n with
  | zero => exact fun s _ => ⟨s, rfl, rfl, rfl, rfl, rfl, Untouched.refl s _⟩
  | succ n ih =>
    intro s hlive
    obtain ⟨t, ht, hdt, hst, hrun, hpc, hframe⟩ := ih s.tick (State.tick_live hlive)
    refine ⟨t, (performAll_cons_of_next rfl).trans ht, ?_, ?_, hrun.trans s.tick_run, hpc.trans s.tick_pc,
      s.tick_untouched.trans hframe⟩
    · rw [hdt, State.tick_dt_toNat hlive]
      omega
    · rw [hst, State.tick_st_toNat hlive]
      omega

/-! Key changes (60_exceptions.md R236) and the end of a key wait (45_timers_keys.md R206). -/

/-- A key change that ends no wait sets the key's level. -/
theorem State.setKey_of_no_press {s : State} {k : Nibble} {p : Bool} (hlive : s.live)
    (h : s.run = .running ∨ p = false ∨ s.isPressed k = true) : s.setKey k p = s.setKeyLevel k p := by
  obtain ⟨e, he, _⟩ | ⟨x, hx, hp, hk, _⟩ | ⟨hs, _⟩ := s.setKey_cases k p
  · exact absurd he (hlive e)
  · obtain hrun | hrel | hheld := h
    · cases hrun.symm.trans hx
    · cases hrel.symm.trans hp
    · cases hheld.symm.trans hk
  · exact hs

theorem State.completeKeyWait_V (s : State) (x k : Nibble) : ((s.completeKeyWait x k).V x).toNat = k.toNat := by
  have hV : (s.completeKeyWait x k).V x = k.setWidth 8 := by simp [State.completeKeyWait]
  rw [hV, BitVec.toNat_setWidth_of_le (by decide)]

theorem State.completeKeyWait_untouched (s : State) (x k : Nibble) :
    Untouched s (s.completeKeyWait x k) fun q => q = .runState ∨ q = .reg x ∨ q = .key k :=
  (((((s.setKeyLevel_untouched k true).mono fun _ h => .inr (.inr h)).trans
    ((State.setV_untouched _ x _).mono fun _ h => .inr (.inl h))).setPc _).trans
    ((State.setRun_untouched _ _).mono fun _ => .inl))

/-- Settles O55: the key change is the end of the wait for a press transition in a block that waits, and sets the key's level
otherwise. -/
theorem keyChangesAndTheKeyWait : Obligations.KeyChangesAndTheKeyWait := by
  refine fun s k p => ⟨fun hk hlive => ⟨fun x hrun hp hup => ?_, fun h => ?_⟩, fun hk => perform_setKey_of_ge hk p s⟩
  · subst hp
    refine ⟨_, (perform_setKey_of_lt hk true s).trans (congrArg _ (State.setKey_of_press hrun hup)), rfl, rfl, ?_, ?_,
      s.completeKeyWait_untouched x _⟩
    · exact (s.completeKeyWait_V x _).trans (nibble_ofNat_toNat hk)
    · simp [State.completeKeyWait]
  · refine ⟨_, (perform_setKey_of_lt hk p s).trans (congrArg _ (State.setKey_of_no_press hlive h)), rfl, ?_,
      s.setKeyLevel_untouched _ p⟩
    simp

/-! The run states (40_cycle.md R101). -/

theorem run_of_perform_halted {a : HostAction} {s t : State} {e : ErrorRecord} (h : perform a s = .next t)
    (ha : ∀ rom, a ≠ .restart rom) (hrun : s.run = .halted e) : t.run = .halted e := by
  obtain rfl | ⟨_, hc⟩ | ⟨_, rfl⟩ | ⟨k, p, _, _, rfl⟩ | ⟨rom, hrom, _⟩ := perform_cases h
  · exact hrun
  · cases (cycle_of_halted hrun).symm.trans hc
    exact hrun
  · exact s.tick_run.trans hrun
  · rwa [State.setKey_of_halted hrun]
  · exact absurd hrom (ha rom)

theorem run_of_perform_running {a : HostAction} {s t : State} (h : perform a s = .next t)
    (ha : ∀ rom, a ≠ .restart rom) (hrun : s.run = .running) (hcycle : a ≠ .cycle) : t.run = .running := by
  have hlive : s.live := fun e he => by cases hrun.symm.trans he
  obtain rfl | ⟨hc, _⟩ | ⟨_, rfl⟩ | ⟨k, p, _, _, rfl⟩ | ⟨rom, hrom, _⟩ := perform_cases h
  · exact hrun
  · exact absurd hc hcycle
  · exact s.tick_run.trans hrun
  · rw [State.setKey_of_no_press hlive (.inl hrun)]
    exact hrun
  · exact absurd hrom (ha rom)

/-- Settles O16: the instruction that completes sets `run` as its rule says; a host action halts nothing and unblocks by a
press transition alone. -/
theorem runStateTransitions : Obligations.RunStateTransitions := by
  refine ⟨fun i s t hrun h x => ?_, fun s t a h ha => ⟨fun e hrun => run_of_perform_halted h ha hrun,
    fun hrun => run_of_perform_running h ha hrun, fun x hrun => ⟨fun k hak hup => ?_, fun hheld => ?_⟩⟩⟩
  · obtain ⟨code, info, rfl, hfits⟩ | hc := exec_cases h
    · refine ⟨nofun, ?_⟩
      rintro rfl
      cases h
    · exact hc.blocked_iff hrun x
  · subst hak
    rcases Nat.lt_or_ge k 16 with hk | hk
    · have hs := (perform_setKey_of_lt hk true s).symm.trans h
      rw [State.setKey_of_press hrun hup] at hs
      cases hs
      exact ⟨rfl, rfl, (s.completeKeyWait_V x _).trans (nibble_ofNat_toNat hk)⟩
    · cases (perform_setKey_of_ge hk true s).symm.trans h
  · by_contra hne
    obtain ⟨k, _, hak, hup⟩ | ⟨rom, hrom⟩ := press_or_restart_of_wait_ends hrun h hne
    · cases (hheld k hak).symm.trans hup
    · exact ha rom hrom

/-! Load and restart (70_reset_and_hazards.md R260 to R263). -/

theorem restart_of_load {s t : State} {rom : List Byte} (h : load rom = .next t) :
    perform (.restart rom) s = .next { t with draws := s.draws, pending := s.pending } := by
  simp only [perform, State.restart, h]
  rfl

theorem load_of_too_long {rom : List Byte} (h : 3584 < rom.length) : load rom = .fault (.loadError rom.length) := by
  simp only [load, loadMemory_error h]

theorem restart_of_too_long {rom : List Byte} (h : 3584 < rom.length) (s : State) :
    perform (.restart rom) s = .fault (.loadError rom.length) := by
  simp only [perform, State.restart, load_of_too_long h]

/-- Settles O57: the block of a ROM that fits is the reset state with the ROM's memory, which reads as at reset where the ROM
is not. -/
theorem loadAndRestartBootTheBlock : Obligations.LoadAndRestartBootTheBlock := by
  refine fun rom s => ⟨fun hfits => ?_, fun hlong => ⟨load_of_too_long hlong, restart_of_too_long hlong s⟩⟩
  obtain ⟨m, hm, hwf, hread⟩ := loadMemory_ok hfits
  have hload := load_of_loadMemory hm
  refine ⟨State.reset.setMem m, hload, rfl, hwf, fun a ha => ?_, State.reset.setMem_untouched_bytes m, restart_of_load hload⟩
  have hboot : State.reset.byteAt a = bootByte a := rfl
  rw [State.setMem_byteAt, hread, hboot]
  split
  · rw [List.getElem?_eq_none (by omega), Option.getD_none]
  · rfl

/-! The boot state (10_state.md R45, 20_memory.md R59, R60). -/

theorem bootByte_of_ge {a : Nat} (h : 80 ≤ a) : bootByte a = 0 := by
  have hlen : font.length = 80 := rfl
  simp [bootByte, fontBase, List.getElem?_eq_none (hlen.trans_le h)]

/-- Settles O10: the fields are those of `State.reset`; an unlisted address reads its boot byte, which is 0 behind the
font. -/
theorem resetIsTheBootState : Obligations.ResetIsTheBootState := by
  refine ⟨rfl, rfl, rfl, rfl, rfl, rfl, fun x => ?_, State.reset_slot, fun k => ?_, fun r c => ?_, by decide,
    fun a => bootByte_of_ge⟩
  · simp [State.V, State.reset]
  · simp [State.isPressed, State.reset]
  · exact Framebuffer.clear_pixel r c

/-! What the host reads (60_exceptions.md R221, R241, R242). -/

theorem State.soundActive_iff (s : State) : s.soundActive = true ↔ s.st.toNat ≠ 0 := by
  rw [State.soundActive, bne_iff_ne, ← BitVec.toNat_ne_iff_ne]
  rfl

theorem State.errorRecord_eq_some_iff (s : State) (e : ErrorRecord) : s.errorRecord = some e ↔ s.run = .halted e := by
  unfold State.errorRecord
  cases s.run <;> simp

/-- Settles O60: the reads answer the state itself. -/
theorem hostReadsChangeNothing : Obligations.HostReadsChangeNothing :=
  fun s => ⟨rfl, rfl, rfl, fun _ _ => rfl, s.soundActive_iff, s.errorRecord_eq_some_iff⟩

end Sys2Proof.Machine
end

section
/-! The statement that the machine performs the host's list in its order: no action reads the list. -/

namespace Sys2Proof.Machine

theorem cycle_setPending (s : State) (p : List HostAction) :
    cycle (s.setPending p) = mapNext (fun t => t.setPending p) (cycle s) := by
  have hfetch : (s.setPending p).fetch = s.fetch := rfl
  have hexec (i : Instr) : exec i (s.setPending p) = mapNext (fun t => t.setPending p) (exec i s) :=
    exec_on ⟨id, id, id, fun _ => p⟩ s (.inr rfl) (.inr rfl) (.inr rfl)
  unfold cycle
  rw [State.setPending_run]
  cases s.run with
  | blockedOnKey x => rfl
  | halted e => rfl
  | running =>
    simp only [runningCycle, hfetch]
    cases s.fetch with
    | error a => rfl
    | ok w =>
      simp only [executeWord]
      cases decodeWord w with
      | none => rfl
      | some i => exact hexec i

theorem State.tick_setPending (s : State) (p : List HostAction) : (s.setPending p).tick = s.tick.setPending p := by
  unfold State.tick
  rw [State.setPending_run]
  cases s.run <;> rfl

theorem State.setKey_setPending (s : State) (k : Nibble) (b : Bool) (p : List HostAction) :
    (s.setPending p).setKey k b = (s.setKey k b).setPending p := by
  unfold State.setKey
  rw [State.setPending_run, State.setPending_isPressed]
  cases s.run with
  | running => rfl
  | halted e => rfl
  | blockedOnKey x => cases b && !s.isPressed k <;> rfl

theorem State.restart_setPending (s : State) (rom : List Byte) (p : List HostAction) :
    (s.setPending p).restart rom = mapNext (fun t => t.setPending p) (s.restart rom) := by
  unfold State.restart
  cases load rom <;> rfl

/-- No host action reads the list of actions to come, and each carries it along. -/
theorem perform_setPending (a : HostAction) (s : State) (p : List HostAction) :
    perform a (s.setPending p) = mapNext (fun t => t.setPending p) (perform a s) := by
  cases a with
  | cycle => exact cycle_setPending s p
  | tick => exact congrArg Host.Outcome.next (s.tick_setPending p)
  | setKey k b =>
    rcases Nat.lt_or_ge k 16 with hk | hk
    · rw [perform_setKey_of_lt hk, perform_setKey_of_lt hk, State.setKey_setPending]
      rfl
    · rw [perform_setKey_of_ge hk, perform_setKey_of_ge hk]
      rfl
  | restart rom => exact s.restart_setPending rom p
  | readFramebuffer => rfl
  | readSound => rfl
  | readError => rfl

/-- Settles O58, by induction on the list: a step performs its head on the state with the tail listed, which differs from the
state with nothing listed in the list alone. -/
theorem stepsFollowTheHostsOrder : Obligations.StepsFollowTheHostsOrder := by
  intro acts
  induction acts with
  | nil => exact fun _ => rfl
  | cons a rest ih =>
    intro s
    have hstep : core.step (s.setPending (a :: rest)) = mapNext (fun t => t.setPending rest) (perform a (s.setPending [])) :=
      (step_of_pending_cons (s.setPending_pending (a :: rest))).trans (perform_setPending a (s.setPending []) rest)
    change Host.Core.run core (rest.length + 1) (s.setPending (a :: rest)) = performAll (a :: rest) (s.setPending [])
    simp only [Host.Core.run, performAll]
    rw [hstep]
    cases hp : perform a (s.setPending []) with
    | fault e => rfl
    | refused e => rfl
    | next t =>
      have hnil : perform a (s.setPending []) = mapNext (fun t => t.setPending []) (perform a (s.setPending [])) :=
        perform_setPending a (s.setPending []) []
      have ht : t = t.setPending [] := by
        rw [hp] at hnil
        exact Host.Outcome.next.inj hnil
      exact (ih t).trans (congrArg (performAll rest) ht.symm)

end Sys2Proof.Machine
end

section
/-! The liveness statement: under the host's duties the delay timer runs out while a block waits for a key nobody presses. -/

namespace Sys2Proof.Machine

/-- A host action that a waiting block sits out: no press, no restart, and no key that does not exist. -/
def leavesWaiting (a : HostAction) : Prop :=
  (∀ k p, a = .setKey k p → k < 16 ∧ p = false) ∧ ∀ rom, a ≠ .restart rom

/-- One such action: the wait goes on, and DT counts down by one at a tick. -/
theorem perform_of_leavesWaiting {a : HostAction} {s : State} {x : Nibble} (ha : leavesWaiting a)
    (hrun : s.run = .blockedOnKey x) :
    ∃ t, perform a s = .next t ∧ t.run = .blockedOnKey x ∧ t.dt.toNat = s.dt.toNat - [a].count .tick := by
  obtain ⟨hkey, hrestart⟩ := ha
  cases a with
  | cycle => exact ⟨s, cycle_of_blocked hrun, hrun, rfl⟩
  | tick => exact ⟨s.tick, rfl, s.tick_run.trans hrun, State.tick_dt_toNat (State.live_of_blocked hrun)⟩
  | setKey k p =>
    obtain ⟨hk, rfl⟩ := hkey k p rfl
    refine ⟨_, perform_setKey_of_lt hk false s, ?_⟩
    rw [State.setKey_of_no_press (State.live_of_blocked hrun) (.inr (.inl rfl))]
    exact ⟨hrun, rfl⟩
  | restart rom => exact absurd rfl (hrestart rom)
  | readFramebuffer => exact ⟨s, rfl, hrun, rfl⟩
  | readSound => exact ⟨s, rfl, hrun, rfl⟩
  | readError => exact ⟨s, rfl, hrun, rfl⟩

/-- Any number of them: DT counts the ticks among them down. -/
theorem performAll_of_leavesWaiting {acts : List HostAction} {s : State} {x : Nibble} (hacts : ∀ a ∈ acts, leavesWaiting a)
    (hrun : s.run = .blockedOnKey x) :
    ∃ t, performAll acts s = .next t ∧ t.run = .blockedOnKey x ∧ t.dt.toNat = s.dt.toNat - acts.count .tick := by
  induction acts generalizing s with
  | nil => exact ⟨s, rfl, hrun, rfl⟩
  | cons a rest ih =>
    obtain ⟨ha, hrest⟩ := List.forall_mem_cons.mp hacts
    obtain ⟨u, hu, hurun, hudt⟩ := perform_of_leavesWaiting ha hrun
    obtain ⟨t, ht, htrun, htdt⟩ := ih hrest hurun
    refine ⟨t, (performAll_cons_of_next hu).trans ht, htrun, ?_⟩
    have hcount : (a :: rest).count .tick = rest.count .tick + [a].count .tick := by
      rw [← List.singleton_append, List.count_append, Nat.add_comm]
    omega

/-- A schedule in which ticks never cease holds any number of them. -/
theorem exists_count_tick {schedule : Nat → HostAction} (h : ∀ n, ∃ m, n ≤ m ∧ schedule m = .tick) (c : Nat) :
    ∃ n, c ≤ (firstActions schedule n).count .tick := by
  induction c with
  | zero => exact ⟨0, Nat.zero_le _⟩
  | succ c ih =>
    obtain ⟨n, hn⟩ := ih
    obtain ⟨m, hnm, hm⟩ := h n
    refine ⟨m + 1, ?_⟩
    have hmono : (firstActions schedule n).count .tick ≤ (firstActions schedule m).count .tick :=
      ((List.range_sublist.mpr hnm).map schedule).count_le _
    have hlast : (firstActions schedule (m + 1)).count .tick = (firstActions schedule m).count .tick + 1 := by
      simp [firstActions, List.range_succ, hm]
    omega

/-- Settles O59: among enough actions of the schedule there are as many ticks as DT holds, and every action leaves the block
waiting. -/
theorem delayRunsOutDuringTheKeyWait : Obligations.DelayRunsOutDuringTheKeyWait := by
  intro schedule s x ⟨hkeys, _, hticks⟩ hrun hpress hrestart
  obtain ⟨n, hn⟩ := exists_count_tick hticks s.dt.toNat
  have hacts : ∀ a ∈ firstActions schedule n, leavesWaiting a := by
    intro a ha
    obtain ⟨m, _, rfl⟩ := List.mem_map.mp ha
    refine ⟨fun k p hk => ⟨hkeys m k p hk, ?_⟩, hrestart m⟩
    cases p with
    | false => rfl
    | true => exact absurd hk (hpress m k)
  obtain ⟨t, ht, htrun, htdt⟩ := performAll_of_leavesWaiting hacts hrun
  refine ⟨n, t, ht, BitVec.eq_of_toNat_eq ?_, htrun⟩
  exact htdt.trans (Nat.sub_eq_zero_of_le hn)

end Sys2Proof.Machine
end

section
/-! The statements of 41_flow.md: SYS, jumps, calls and skips. -/

namespace Sys2Proof.Machine

/-- Settles O22: the meaning of SYS is the raise. -/
theorem sysHalts : Obligations.SysHalts :=
  fun nnn s => s.raiseIn_eq (.sys nnn) .sysUnsupported none

theorem State.setPc_untouched (s : State) (w : Word) : Untouched s (s.setPc w) fun _ => False :=
  (Untouched.refl s _).setPc w

/-- Settles O23: both jumps set the pc alone; the sum with V0 is below 2^16, so it is exact. -/
theorem jumpsWriteOnlyThePc : Obligations.JumpsWriteOnlyThePc :=
  fun nnn s => ⟨⟨s.setPc (addrOf nnn), rfl, addrOf_toNat nnn, s.setPc_untouched _⟩,
    s.setPc (addrOf nnn + zext16 (s.V 0)), rfl, addrOf_add_zext16_toNat nnn _, s.setPc_untouched _⟩

/-- Settles O24, by the equations of CALL below and at SP = 16. -/
theorem callPushesTheReturnAddress : Obligations.CallPushesTheReturnAddress := by
  refine fun nnn s => ⟨fun hsp => ?_, exec_call_of_sp_eq⟩
  refine ⟨_, exec_call_of_sp_lt hsp, addrOf_toNat nnn, sp_add_one_toNat hsp, ?_, call_untouched _ _ _ _⟩
  simp

/-- Settles O26: the return finds the entry that the call pushed, and its SP is the one before the call. -/
theorem callThenReturnComesBack : Obligations.CallThenReturnComesBack := by
  intro nnn s hsp
  obtain ⟨t, ht, _, htsp, htslot, htframe⟩ := (callPushesTheReturnAddress nnn s).1 hsp
  have hret := exec_ret_of_sp_pos (s := t) (by omega) (by omega)
  rw [htsp, Nat.add_sub_cancel, htslot] at hret
  refine ⟨t, _, ht, hret, rfl, fun p hp => ?_⟩
  by_cases hstack : p = .stackPointer
  · subst hstack
    refine BitVec.eq_of_toNat_eq ?_
    have hone : (t.sp - 1).toNat = t.sp.toNat - 1 := sp_sub_one_toNat (by omega)
    simp only [State.setPc_sp, State.setSp_sp]
    omega
  · refine Part.same_trans (htframe p ?_) ((t.setSp_untouched (t.sp - 1)).setPc _ p hstack)
    exact not_or.mpr ⟨hstack, hp⟩

/-- Settles O27, by the equations of CALL and RET above SP = 16. -/
theorem callAndReturnStopAboveSixteen : Obligations.CallAndReturnStopAboveSixteen :=
  fun _ _ hsp => ⟨exec_call_of_sp_gt hsp, exec_ret_of_sp_gt hsp⟩

/-! A skip on a condition writes the pc alone (41_flow.md R110). -/

theorem State.advanceSkipIf_untouched (s : State) (c : Bool) : Untouched s (s.advanceSkipIf c) fun _ => False := by
  rw [State.advanceSkipIf_eq]
  exact s.setPc_untouched _

theorem skip_next (s : State) {c : Bool} {P : Prop} [Decidable P] (h : c = true ↔ P) :
    ∃ t, (.next (s.advanceSkipIf c) : Result) = .next t ∧ t.pc = (if P then s.pc + 4 else s.pc + 2) ∧
      Untouched s t fun _ => False := by
  refine ⟨_, rfl, ?_, s.advanceSkipIf_untouched c⟩
  rw [State.advanceSkipIf_pc]
  exact if_congr h rfl rfl

/-- Settles O28: the two conditions are equality with nn and its negation. -/
theorem skipOnAnImmediate : Obligations.SkipOnAnImmediate :=
  fun _ _ s => ⟨skip_next s beq_iff_eq, skip_next s bne_iff_ne⟩

/-- Settles O29: the two conditions are equality with `V[y]` and its negation. -/
theorem skipOnARegister : Obligations.SkipOnARegister :=
  fun _ _ s => ⟨skip_next s beq_iff_eq, skip_next s bne_iff_ne⟩

end Sys2Proof.Machine
end

section
/-! The statements of 42_alu.md about the instructions that write one register, and about SUBN and the shifts. -/

namespace Sys2Proof.Machine

/-- All that an instruction with a result and no flag does. -/
theorem State.writeReg_next (s : State) (x : Nibble) (b : Byte) :
    ∃ t, s.writeReg x b = .next t ∧ t.pc = s.pc + 2 ∧ t.V x = b ∧ Untouched s t fun p => p = .reg x := by
  refine ⟨s.advance.setV x b, rfl, rfl, ?_, (s.setV_untouched x b).setPc (s.pc + 2)⟩
  simp

/-- Settles O30: the two results are nn and the old `V[y]`. -/
theorem loadsCopyIntoOneRegister : Obligations.LoadsCopyIntoOneRegister :=
  fun x y nn s => ⟨s.writeReg_next x nn, s.writeReg_next x (s.V y)⟩

/-- Settles O31: the result is the sum modulo 256. -/
theorem addImmediateSetsNoFlag : Obligations.AddImmediateSetsNoFlag := by
  intro x nn s
  obtain ⟨t, ht, hpc, hV, hframe⟩ := s.writeReg_next x (addByte (s.V x) nn)
  refine ⟨t, ht, hpc, ?_, hframe⟩
  rw [hV, addByte_toNat]

/-- Settles O32: the three results are the bitwise operations, each read bit by bit. -/
theorem logicSetsNoFlag : Obligations.LogicSetsNoFlag := by
  intro x y s
  refine ⟨?_, ?_, ?_⟩
  · obtain ⟨t, ht, hpc, hV, hframe⟩ := s.writeReg_next x (s.V x ||| s.V y)
    exact ⟨t, ht, hpc, fun b => by rw [hV, BitVec.getLsbD_or], hframe⟩
  · obtain ⟨t, ht, hpc, hV, hframe⟩ := s.writeReg_next x (s.V x &&& s.V y)
    exact ⟨t, ht, hpc, fun b => by rw [hV, BitVec.getLsbD_and], hframe⟩
  · obtain ⟨t, ht, hpc, hV, hframe⟩ := s.writeReg_next x (s.V x ^^^ s.V y)
    exact ⟨t, ht, hpc, fun b => by rw [hV, BitVec.getLsbD_xor], hframe⟩

/-- Settles O38: the result is the free byte under the mask, whatever the byte is; a bit that the mask lacks is 0. -/
theorem randomByteUnderTheMask : Obligations.RandomByteUnderTheMask := by
  intro x nn s
  have hV : ((s.advance.setDraws (s.draws + 1)).setV x (s.drawByte &&& nn)).V x = Config.freeByte s.draws &&& nn := by
    simp [State.drawByte]
  refine ⟨_, rfl, rfl, hV, fun b hb => ?_, rfl, (Completes.of_rnd x nn s).frame⟩
  rw [hV, BitVec.getLsbD_and, hb, Bool.and_false]

/-! Shifts as numbers (42_alu.md R139, R141). -/

theorem shrByte_toNat (a : Byte) : (shrByte a).toNat = a.toNat / 2 :=
  BitVec.toNat_ushiftRight a 1

theorem shlByte_toNat (a : Byte) : (shlByte a).toNat = 2 * a.toNat % 256 := by
  rw [shlByte, BitVec.toNat_shiftLeft, Nat.shiftLeft_eq, Nat.mul_comm]

theorem shrFlag_toNat (a : Byte) : (shrFlag a).toNat = a.toNat % 2 := by
  rw [shrFlag, BitVec.getLsbD, Nat.testBit_zero]
  refine (flagOf_decide_toNat _).trans ?_
  split <;> omega

theorem shlFlag_toNat (a : Byte) : (shlFlag a).toNat = a.toNat / 128 := by
  have ha := a.isLt
  rw [shlFlag, BitVec.getLsbD, Nat.testBit_eq_decide_div_mod_eq]
  refine (flagOf_decide_toNat _).trans ?_
  split <;> omega

/-- Settles O35: SUB with the operands exchanged. -/
theorem subnSetsNoBorrow : Obligations.SubnSetsNoBorrow := by
  intro x y s
  obtain ⟨t, ht, hpc, hflag, hresult, hframe⟩ :=
    s.writeRegFlag_next x (subByte (s.V y) (s.V x)) (noBorrowFlag (s.V y) (s.V x))
  refine ⟨t, ht, hpc, ?_, fun hx => ?_, hframe⟩
  · rw [hflag]
    exact flagOf_decide_toNat _
  · rw [hresult hx, subByte_toNat]

/-- Settles O36: the writeback of the shifted byte and its old bit 0. -/
theorem shiftRightTakesBitZero : Obligations.ShiftRightTakesBitZero := by
  intro x y s
  obtain ⟨t, ht, hpc, hflag, hresult, hframe⟩ := s.writeRegFlag_next x (shrByte (s.V x)) (shrFlag (s.V x))
  refine ⟨t, ht, hpc, ?_, fun hx => ?_, hframe⟩
  · rw [hflag, shrFlag_toNat]
  · rw [hresult hx, shrByte_toNat]

/-- Settles O37: the writeback of the shifted byte and its old bit 7. -/
theorem shiftLeftTakesBitSeven : Obligations.ShiftLeftTakesBitSeven := by
  intro x y s
  obtain ⟨t, ht, hpc, hflag, hresult, hframe⟩ := s.writeRegFlag_next x (shlByte (s.V x)) (shlFlag (s.V x))
  refine ⟨t, ht, hpc, ?_, fun hx => ?_, hframe⟩
  · rw [hflag, shlFlag_toNat]
  · rw [hresult hx, shlByte_toNat]

end Sys2Proof.Machine
end

section
/-! The statements of 45_timers_keys.md about key tests and timer moves, and of 43_index_memory.md about I and LD F. -/

namespace Sys2Proof.Machine

theorem setWidth_of_toNat_eq {b : Byte} {k : Nibble} (h : b.toNat = k.toNat) : b.setWidth 4 = k := by
  refine BitVec.eq_of_toNat_eq ?_
  have hk := k.isLt
  rw [BitVec.toNat_setWidth, h]
  omega

/-- Settles O50: with a digit the tests are skips on the key's level, with any other value they are the operand error. -/
theorem keyTestsSkipOnTheLevel : Obligations.KeyTestsSkipOnTheLevel := by
  refine fun x s => ⟨fun k hk => ?_, fun hx => ⟨State.withDigit_error hx, State.withDigit_error hx⟩⟩
  have hdigit : (s.V x).toNat ≤ 15 := hk ▸ Nat.le_of_lt_succ k.isLt
  have hskp := State.withDigit_ok (i := .skp x) (go := fun k => s.advanceSkipIf (s.isPressed k)) hdigit
  have hsknp := State.withDigit_ok (i := .sknp x) (go := fun k => s.advanceSkipIf (!s.isPressed k)) hdigit
  rw [setWidth_of_toNat_eq hk] at hskp hsknp
  refine ⟨⟨_, hskp, s.advanceSkipIf_pc _, s.advanceSkipIf_untouched _⟩, _, hsknp, ?_, s.advanceSkipIf_untouched _⟩
  rw [State.advanceSkipIf_pc]
  cases s.isPressed k <;> rfl

/-- Settles O51: each writes the part it names with the byte it names. -/
theorem timerRegistersMoveBytes : Obligations.TimerRegistersMoveBytes :=
  fun x s => ⟨s.writeReg_next x s.dt, ⟨_, rfl, rfl, rfl, (s.setDt_untouched _).setPc (s.pc + 2)⟩,
    _, rfl, rfl, rfl, (s.setSt_untouched _).setPc (s.pc + 2)⟩

/-- Settles O39: I takes the operand, or the sum modulo 65536. -/
theorem indexLoadAndAdd : Obligations.IndexLoadAndAdd := by
  refine fun x nnn s => ⟨⟨_, rfl, rfl, addrOf_toNat nnn, (s.setI_untouched _).setPc (s.pc + 2)⟩,
    _, rfl, rfl, ?_, (s.setI_untouched _).setPc (s.pc + 2)⟩
  rw [State.setI_i, BitVec.toNat_add, zext16_toNat]

theorem glyphAddr_toNat (d : Nibble) : (glyphAddr d).toNat = 5 * d.toNat := by
  have hd := d.isLt
  simp only [glyphAddr, fontBase, BitVec.toNat_ofNat]
  omega

/-- Settles O40: with a digit I is its glyph's address, with any other value LD F is the operand error. -/
theorem fontAddressOfADigit : Obligations.FontAddressOfADigit := by
  refine fun x s => ⟨fun hx => ⟨_, State.withDigit_ok hx, rfl, ?_, (s.setI_untouched _).setPc (s.pc + 2)⟩,
    State.withDigit_error⟩
  rw [State.setI_i, glyphAddr_toNat, BitVec.toNat_setWidth]
  omega

end Sys2Proof.Machine
end

section
/-! The statements of 43_index_memory.md about the accesses through I: LD B, LD [I], Vx and LD Vx, [I]. -/

namespace Sys2Proof.Machine

/-! A run of writes from I that stays in memory. -/

/-- It completes and changes the listed addresses alone; in canonical memory they hold the listed bytes. -/
theorem writeRun_in_memory {s : State} {bs : List Byte} (h : s.i.toNat + bs.length ≤ 4096) :
    ∃ m, Memory.writeRun s.mem s.indexAddr bs = .ok m ∧
      (Memory.wf s.mem = true → ∀ k b, bs[k]? = some b → Memory.read m (s.i.toNat + k) = b) ∧
      Untouched s (s.setMem m) fun p => ∃ a, (∃ k, k < bs.length ∧ a = s.i.toNat + k) ∧ p = .byte a := by
  obtain ⟨m, hm, hframe⟩ := Memory.writeRun_frame (m := s.mem) (a := s.i.toNat) (bs := bs) (.inr h)
  refine ⟨m, hm, fun hwf k b hk => ?_, State.setMem_untouched fun a ha => hframe a ?_⟩
  · obtain ⟨m', hm', _, hread⟩ := Memory.writeRun_ok (a := s.i.toNat) (bs := bs) hwf (.inr h)
    cases hm.symm.trans hm'
    rw [hread, if_pos (Nat.le_add_right _ k), Nat.add_sub_cancel_left, hk, Option.getD_some]
  · by_contra hin
    exact ha ⟨a - s.i.toNat, by omega, by omega⟩

/-- The frame of such a run, in the form the statements give it. -/
theorem Untouched.byteRange {s t : State} {a n : Nat}
    (h : Untouched s t fun p => ∃ c, (∃ k, k < n ∧ c = a + k) ∧ p = .byte c) :
    Untouched s t fun p => ∃ k, k < n ∧ p = .byte (a + k) := by
  refine h.mono ?_
  rintro p ⟨_, ⟨k, hk, rfl⟩, rfl⟩
  exact ⟨k, hk, rfl⟩

/-- A digit fits a byte. -/
theorem byte_ofNat_toNat {n : Nat} (h : n < 256) : (BitVec.ofNat 8 n).toNat = n :=
  (BitVec.toNat_ofNat n 8).trans (Nat.mod_eq_of_lt h)

/-- Settles O41: the three digits are written from I up. -/
theorem bcdStoresThreeDigits : Obligations.BcdStoresThreeDigits := by
  intro x s hI
  obtain ⟨m, hm, hbytes, hframe⟩ := writeRun_in_memory (s := s) (bs := bcdDigits (s.V x)) (by rw [bcdDigits_length]; omega)
  have hV := (s.V x).isLt
  refine ⟨s.advance.setMem m, ?_, rfl, fun hwf => ⟨?_, ?_, ?_⟩, (hframe.setPc (s.pc + 2)).byteRange⟩
  · simp only [exec, execLdB, hm, State.orMemoryFault_ok]
  · rw [State.setMem_byteAt, ← Nat.add_zero s.i.toNat, hbytes hwf 0 _ rfl, byte_ofNat_toNat (by omega)]
  · rw [State.setMem_byteAt, hbytes hwf 1 _ rfl, byte_ofNat_toNat (by omega)]
  · rw [State.setMem_byteAt, hbytes hwf 2 _ rfl, byte_ofNat_toNat (by omega)]

/-- Settles O42: the run of V0 to Vx is written from I up. -/
theorem storeRegistersWritesTheRange : Obligations.StoreRegistersWritesTheRange := by
  intro x s hI
  obtain ⟨m, hm, hbytes, hframe⟩ := writeRun_in_memory (s := s) (bs := s.regRange x) (by rw [State.regRange_length]; omega)
  refine ⟨s.advance.setMem m, ?_, rfl, fun hwf k hk => ?_, (hframe.setPc (s.pc + 2)).byteRange.mono ?_⟩
  · simp only [exec, execStoreRegs, hm, State.orMemoryFault_ok]
  · rw [State.setMem_byteAt, hbytes hwf k.toNat _ (s.regRange_getElem? x hk), BitVec.ofNat_toNat, BitVec.setWidth_eq]
  · rintro p ⟨k, hk, rfl⟩
    rw [State.regRange_length] at hk
    exact ⟨k, Nat.le_of_lt_succ hk, rfl⟩

/-- Settles O43: the bytes read from I up go to V0 to Vx. -/
theorem loadRegistersReadsTheRange : Obligations.LoadRegistersReadsTheRange := by
  intro x s hI
  have hread := Memory.readRun_ok s.mem (a := s.indexAddr) (n := rangeCount x) (.inr (by
    simp only [rangeCount, State.indexAddr, Config_memSize]
    omega))
  have hlen := readRun_length hread
  generalize hbs : (List.range (rangeCount x)).map (fun k => Memory.read s.mem (s.indexAddr + k)) = bs at hread hlen
  refine ⟨(s.setRegsFrom 0 bs).setPc (s.pc + 2), ?_, rfl, fun k hk => ?_, (State.setRegsFrom_untouched hlen).setPc _⟩
  · simp only [exec, execLoadRegs, hread, State.orMemoryFault_ok, State.advance_setRegsFrom]
  · have hx := x.isLt
    have hkth : bs[k.toNat]? = some (s.byteAt (s.i.toNat + k.toNat)) := by
      have hlt : k.toNat < rangeCount x := Nat.lt_succ_of_le hk
      rw [← hbs, List.getElem?_map, List.getElem?_range hlt]
      rfl
    rw [State.setPc_V, State.setRegsFrom_V _ _ _ (by simp only [hlen, rangeCount]; omega), if_pos (Nat.zero_le _), Nat.sub_zero,
      hkth, Option.getD_some]

/-- Settles O44: a run of at least one access whose last address is outside memory faults at the larger of I and 4096. -/
theorem accessOutsideMemoryHalts : Obligations.AccessOutsideMemoryHalts := by
  refine fun x y n s => ⟨fun hI => ?_, fun hI => ⟨?_, ?_⟩, fun hn hI => ?_⟩
  · have hfault := Memory.writeRun_fault (m := s.mem) (a := s.i.toNat) (bs := bcdDigits (s.V x)) nofun
      (by rw [bcdDigits_length, Config_memSize]; omega)
    simp only [exec, execLdB, State.indexAddr, hfault, State.orMemoryFault_error, Config_memSize]
  · have hlen := s.regRange_length x
    have hfault := Memory.writeRun_fault (m := s.mem) (a := s.i.toNat) (bs := s.regRange x)
      (List.ne_nil_of_length_pos (by omega)) (by rw [hlen, Config_memSize]; omega)
    simp only [exec, execStoreRegs, State.indexAddr, hfault, State.orMemoryFault_error, Config_memSize]
  · have hfault := Memory.readRun_fault s.mem (a := s.i.toNat) (n := rangeCount x) (Nat.succ_ne_zero _)
      (by rw [rangeCount, Config_memSize]; omega)
    simp only [exec, execLoadRegs, State.indexAddr, hfault, State.orMemoryFault_error, Config_memSize]
  · have hfault := Memory.readRun_fault s.mem (a := s.i.toNat) (n := n.toNat) (by omega) (by rw [Config_memSize]; omega)
    simp only [exec, execDrw, State.indexAddr, hfault, State.orMemoryFault_error, Config_memSize]

/-- Settles O45: the load reads the bytes that the store wrote, I being no part that the store changes. -/
theorem storeThenLoadRestoresRegisters : Obligations.StoreThenLoadRestoresRegisters := by
  intro x s v' hwf hI
  obtain ⟨t, ht, _, hbytes, htframe⟩ := storeRegistersWritesTheRange x s hI
  have hti : t.i = s.i := htframe .index nofun
  obtain ⟨u, hu, _, hload, _⟩ := loadRegistersReadsTheRange x { t with v := v' } (by rw [hti]; exact hI)
  refine ⟨t, u, ht, hu, fun k hk => ?_⟩
  calc u.V k = t.byteAt (t.i.toNat + k.toNat) := hload k hk
    _ = t.byteAt (s.i.toNat + k.toNat) := by rw [hti]
    _ = s.V k := hbytes hwf k hk

/-- Settles O46: the next fetch takes the bytes at the old I and behind it, which are V0 and V1. -/
theorem storedBytesAreFetchedNext : Obligations.StoredBytesAreFetchedNext := by
  intro x s hwf hx hipc hI
  obtain ⟨t, ht, hpc, hbytes, _⟩ := storeRegistersWritesTheRange x s hI
  have hti : t.pc.toNat = s.i.toNat := by rw [hpc, hipc]
  have h0 : t.byteAt s.i.toNat = s.V 0x0#4 := hbytes hwf 0x0#4 (Nat.zero_le _)
  have h1 : t.byteAt (s.i.toNat + 1) = s.V 0x1#4 := hbytes hwf 0x1#4 hx
  refine ⟨t, ht, ?_⟩
  rw [State.fetch_ok (by omega), hti, h0, h1]
  rfl

end Sys2Proof.Machine
end

section
/-! The statements of 44_display.md: CLS, and DRW by the pixels its sprite covers. -/

namespace Sys2Proof.Machine

/-- Settles O47: the new framebuffer has every pixel off. -/
theorem clearScreenTurnsEveryPixelOff : Obligations.ClearScreenTurnsEveryPixelOff :=
  fun s => ⟨_, rfl, rfl, Framebuffer.clear_pixel, (s.setFb_untouched_pixels _).setPc (s.pc + 2)⟩

/-! A draw whose sprite lies inside memory. -/

/-- The draw of DRW Vx, Vy, n on the framebuffer of a state (44_display.md R182). -/
def State.drawn (s : State) (x y n : Nibble) : Blit :=
  drawSprite s.fb (originCol (s.V x)) (originRow (s.V y)) ((List.range n.toNat).map fun k => s.byteAt (s.i.toNat + k))

section draw
variable {x y n : Nibble} {s : State}

theorem exec_drw_of_in_memory (h : n.toNat = 0 ∨ s.i.toNat + n.toNat ≤ 4096) :
    exec (.drw x y n) s =
      .next ((s.advance.setFb (s.drawn x y n).fb).setV vF (flagOf (s.drawn x y n).collision)) := by
  have hread := Memory.readRun_ok s.mem (a := s.indexAddr) h
  simp only [exec, execDrw, hread, State.orMemoryFault_ok]
  rfl

theorem nibble_toNat_le_32 (n : Nibble) : n.toNat ≤ 32 :=
  n.isLt.le.trans (by decide)

theorem drawn_pixel_of_covers {r : Fin 32} {c : Fin 64} (h : drawCovers s x y n r c) :
    Framebuffer.pixel (s.drawn x y n).fb r c = !s.pixel r c :=
  ((drawSprite_spec s.fb _ _ n.toNat _ (nibble_toNat_le_32 n)).1 r c).1 h

theorem drawn_pixel_of_not_covers {r : Fin 32} {c : Fin 64} (h : ¬ drawCovers s x y n r c) :
    Framebuffer.pixel (s.drawn x y n).fb r c = s.pixel r c :=
  ((drawSprite_spec s.fb _ _ n.toNat _ (nibble_toNat_le_32 n)).1 r c).2 h

theorem drawn_collision_iff :
    (s.drawn x y n).collision = true ↔ ∃ r c, drawCovers s x y n r c ∧ s.pixel r c = true :=
  (drawSprite_spec s.fb _ _ n.toNat _ (nibble_toNat_le_32 n)).2

end draw

/-- Settles O48: the draw toggles the covered pixels, and its flag is the collision. -/
theorem drawTogglesTheCoveredPixels : Obligations.DrawTogglesTheCoveredPixels := by
  intro x y n s h
  refine ⟨_, exec_drw_of_in_memory h, rfl, fun r c => drawn_pixel_of_covers, fun hhit => ?_, fun hmiss => ?_, ?_⟩
  · simp [drawn_collision_iff.mpr hhit, flagOf]
  · simp [Bool.eq_false_iff.mpr (mt drawn_collision_iff.mp hmiss), flagOf]
  · have hfb : Untouched s (s.setFb (s.drawn x y n).fb) fun p => ∃ r c, drawCovers s x y n r c ∧ p = .pixel r c :=
      State.setFb_untouched fun _ _ => drawn_pixel_of_not_covers
    exact ((hfb.mono fun _ => .inr).trans ((State.setV_untouched _ vF _).mono fun _ => .inl)).setPc (s.pc + 2)

/-- Settles O49: with the coordinates, I and memory as before, the second draw covers the same pixels and toggles them
back; one of them is on before it exactly when the first draw lit it. -/
theorem drawTwiceRestoresTheScreen : Obligations.DrawTwiceRestoresTheScreen := by
  intro x y n s hx hy h
  obtain ⟨t, ht, _, htoggle, _, _, hframe⟩ := drawTogglesTheCoveredPixels x y n s h
  have hVx : t.V x = s.V x := hframe (.reg x) (by simp [hx])
  have hVy : t.V y = s.V y := hframe (.reg y) (by simp [hy])
  have hi : t.i = s.i := hframe .index (by simp)
  have hbyte (a : Nat) : t.byteAt a = s.byteAt a := hframe (.byte a) (by simp)
  have hcovers (r : Fin 32) (c : Fin 64) : drawCovers t x y n r c ↔ drawCovers s x y n r c := by
    simp only [drawCovers, hVx, hVy, hi, hbyte]
  have hkeep {r : Fin 32} {c : Fin 64} (hrc : ¬ drawCovers s x y n r c) : t.pixel r c = s.pixel r c :=
    hframe (.pixel r c) (by simpa using hrc)
  obtain ⟨u, hu, _, htoggle', hhit, hmiss, hframe'⟩ := drawTogglesTheCoveredPixels x y n t (by rwa [hi])
  have hlit : (∃ r c, drawCovers t x y n r c ∧ t.pixel r c = true) ↔ ∃ r c, s.pixel r c = false ∧ t.pixel r c = true := by
    refine exists_congr fun r => exists_congr fun c => and_congr_left fun hon => ?_
    rw [hcovers]
    by_cases hrc : drawCovers s x y n r c
    · have hoff : s.pixel r c = false := by simpa [htoggle r c hrc] using hon
      simp [hrc, hoff]
    · have hon' : s.pixel r c = true := (hkeep hrc).symm.trans hon
      simp [hrc, hon']
  refine ⟨t, u, ht, hu, fb_ext fun r c => ?_, ?_⟩
  · change u.pixel r c = s.pixel r c
    by_cases hrc : drawCovers s x y n r c
    · rw [htoggle' r c ((hcovers r c).mpr hrc), htoggle r c hrc, Bool.not_not]
    · have hrc' : ¬ drawCovers t x y n r c := mt (hcovers r c).mp hrc
      exact (hframe' (.pixel r c) (by simpa using hrc')).trans (hkeep hrc)
  · rw [← hlit]
    refine ⟨fun hone => ?_, hhit⟩
    by_contra hno
    exact absurd ((hmiss hno).symm.trans hone) (by decide)

end Sys2Proof.Machine
end
